-- ==== Sys2Proof/Word.lean ====
section
/-! DEFINITION. The two machine words: a register (00_scope.md R8: 64 bits whatever VAL_W is) and a byte
of IN or OUT (00_scope.md R11). -/

namespace Sys2Proof

/-- One register of the window, and one command word (00_scope.md R8, 30_encoding.md R60). -/
abbrev Word := BitVec 64

/-- One byte of IN or OUT (20_memory.md R44). -/
abbrev Byte := BitVec 8

end Sys2Proof
end

