-- ==== Sys2Proof/Syntax.lean ====
section
/-! DEFINITION. The commands of the block: one constructor for each row of spec/opcode_table.json
(30_encoding.md R62). -/

namespace Sys2Proof

/-- A command, as its command word selects it (30_encoding.md R62, R63). The word carries no operands (R61). -/
inductive Instr where
  /-- 0x1 ENCODE_VALUE (40_varint.md R84) -/
  | encodeValue
  /-- 0x2 DECODE_VALUE (40_varint.md R85) -/
  | decodeValue
  /-- 0x3 ENCODE_SECTION (41_section_header.md R91) -/
  | encodeSection
  /-- 0x4 DECODE_SECTION (41_section_header.md R92) -/
  | decodeSection
  /-- 0x5 ENCODE (42_rle_encoder.md R101) -/
  | encodeStream
  /-- 0x6 DECODE (43_rle_decoder.md R111) -/
  | decodeStream
  /-- 0x0, reserved (60_exceptions.md R118) -/
  | reserved0
  /-- 0x7, reserved (60_exceptions.md R118) -/
  | reserved7
  /-- 0x8 to 0xF, reserved (60_exceptions.md R118). The row fixes bit 3 only, so the code is an operand. -/
  | reserved8toF (op : BitVec 4)
deriving DecidableEq, Repr

/-- Why the decoder gives no command. No 64-bit word is rejected (30_encoding.md R63); what is no command word at all
is. -/
inductive DecodeError where
  /-- longer than the one command length, 64 bits (30_encoding.md R60: "There is no other command length") -/
  | notACommandWord
deriving DecidableEq, Repr

end Sys2Proof
end

