-- ==== Sys2Proof/WellFormed.lean ====
section
/-! DEFINITION. Which terms of `Instr` some command word selects. -/

namespace Sys2Proof

/-- The row 0x8 to 0xF fixes OP bit 3 at 1 (spec/opcode_table.json, 30_encoding.md R62). No other row has an operand
to check. -/
def Instr.wellFormed : Instr → Bool
  | .encodeValue => true
  | .decodeValue => true
  | .encodeSection => true
  | .decodeSection => true
  | .encodeStream => true
  | .decodeStream => true
  | .reserved0 => true
  | .reserved7 => true
  | .reserved8toF op => op.getLsbD 3

end Sys2Proof
end

