-- ==== Sys2Proof/Decode.lean ====
section
/-! DEFINITION. From a command word to its command and back (30_encoding.md R60 to R63). -/

namespace Sys2Proof

/-- OP = CMD[3:0] (30_encoding.md R60). -/
def opField (w : Word) : BitVec 4 := w.extractLsb' 0 4

/-- The command map of 30_encoding.md R62. -/
def decodeOp (op : BitVec 4) : Instr :=
  match op.toNat with
  | 0x0 => .reserved0
  | 0x1 => .encodeValue
  | 0x2 => .decodeValue
  | 0x3 => .encodeSection
  | 0x4 => .decodeSection
  | 0x5 => .encodeStream
  | 0x6 => .decodeStream
  | 0x7 => .reserved7
  | _ => .reserved8toF op

/-- Decoding a command word is total, by bits [3:0] alone (30_encoding.md R63). -/
def decode (w : Word) : Instr := decodeOp (opField w)

/-- The command that `nbits` bits stand for. Bits above them are 0, and more than 64 bits are no command word
(30_encoding.md R60: one format, of one fixed length). -/
def decodeBits (nbits w : Nat) : Except DecodeError Instr :=
  if nbits ≤ 64 then .ok (decode (BitVec.ofNat 64 (w % 2 ^ nbits))) else .error .notACommandWord

/-- The command of a row of spec/opcode_table.json, whose bits are numbered as the CMD word's are. -/
def decodeTableWord (nbits w : Nat) : Option Instr :=
  match decodeBits nbits w with
  | .ok i => some i
  | .error _ => none

/-- The code of a command (30_encoding.md R62). -/
def encodeOp : Instr → BitVec 4
  | .reserved0 => 0x0
  | .encodeValue => 0x1
  | .decodeValue => 0x2
  | .encodeSection => 0x3
  | .decodeSection => 0x4
  | .encodeStream => 0x5
  | .decodeStream => 0x6
  | .reserved7 => 0x7
  | .reserved8toF op => op

/-- The command word of a command: OP in bits [3:0], the reserved bits [63:4] written as 0 (30_encoding.md R60, and the
`GO` encoding of R78). -/
def encode (i : Instr) : Word := (encodeOp i).setWidth 64

end Sys2Proof
end

