-- ==== Sys2Proof/Config.lean ====
section
/-! DEFINITION. The implementation parameters of 00_scope.md section 4, and the free values that
60_exceptions.md R133 calls draws. -/

namespace Sys2Proof

/-- The OPEN parameters of the block (00_scope.md section 4). The spec gives none of them a value, so a chip's
parameters are a value of this type, held in the state and changed by no step (assumption log 1). The three bases
say where the platform puts the windows (20_memory.md R41). A host access names its window and the place in it, so
no rule reads a base (assumption log 2). -/
structure Params where
  /-- `VAL_W`: width in bits of every varint value -/
  valW : Nat
  /-- `IN_CAP`: bytes of the input memory -/
  inCap : Nat
  /-- `OUT_CAP`: bytes of the output memory -/
  outCap : Nat
  /-- `BASE_REG`: platform address of the register window -/
  baseReg : Nat
  /-- `BASE_IN`: platform address of the IN window -/
  baseIn : Nat
  /-- `BASE_OUT`: platform address of the OUT window -/
  baseOut : Nat
deriving DecidableEq, Repr

/-- The constraints of 00_scope.md section 4 (R7, R9): 8 <= VAL_W <= 64, 1 <= IN_CAP,
2*IN_CAP + 1 <= 2^VAL_W - 1, ceil(VAL_W/7) <= OUT_CAP < 2^64. -/
abbrev Params.Wf (p : Params) : Prop :=
  8 ≤ p.valW ∧ p.valW ≤ 64 ∧ 1 ≤ p.inCap ∧ 2 * p.inCap + 1 ≤ 2 ^ p.valW - 1 ∧
    (p.valW + 6) / 7 ≤ p.outCap ∧ p.outCap < 2 ^ 64

/-- DESIGN CHOICE, unsafe (assumption log 1): the parameters of `State.reset`. VAL_W is the test vectors' 32
(95_test_vectors.md), and OUT_CAP is ENC_BOUND(65536) as 95_test_vectors.md section 2.5 gives it. DESIGN CHOICE (assumption
log 2): BASE_REG, BASE_IN and BASE_OUT, which 20_memory.md R41 leaves OPEN, are all 0. No rule of the model reads a base, so
that is no claim that the windows overlap. Statements quantify over every state, so over every chip's parameters, and rest
on none of these numbers. -/
def Params.vectors : Params where
  valW := 32
  inCap := 65536
  outCap := 196609
  baseReg := 0
  baseIn := 0
  baseOut := 0

/-- A free byte, "any byte ... fresh per read" (60_exceptions.md R133), applied to the count of draws so far. It has no
body, so no proof can use a value of it (assumption log 5). -/
opaque Config.freeByte : Nat → Byte

/-- A free register value, "any ... 64-bit value, fresh per read" (60_exceptions.md R133), applied to the count of
draws so far (assumption log 5). -/
opaque Config.freeWord : Nat → Word

end Sys2Proof
end

