-- ==== Sys2Proof/Machine/State.lean ====
section
/-! DEFINITION. The architectural state (10_state.md), the inputs of the block, and the reasons a step can stop. -/

namespace Sys2Proof.Machine

/-- The engine's phase (10_state.md R18). -/
inductive Phase where
  | idle
  | busy
deriving DecidableEq, Repr

/-- The error codes a command can report (60_exceptions.md R115). NONE is the absence of one. -/
inductive ErrCode where
  /-- 0x1: a varint or a payload runs past IN_LEN -/
  | trunc
  /-- 0x2: a varint's value needs more than VAL_W bits -/
  | overflow
  /-- 0x3: the output would be longer than OUT_CAP -/
  | outFull
  /-- 0x4: ARG_OFFSET > IN_LEN -/
  | offset
  /-- 0x5: an operand out of range -/
  | arg
  /-- 0x6: a reserved command code -/
  | badCmd
deriving DecidableEq, Repr

/-- The operands the engine records at command start (10_state.md R34). -/
structure Latch where
  op : BitVec 4
  inLen : Word
  argOffset : Word
  argValue : Word
  lit : Bool
deriving DecidableEq, Repr

/-- A byte memory: the bytes that hold a definite value, addresses strictly rising. An address that is not listed has
NO VALUE: in IN it is a byte not written since reset (10_state.md R36), in OUT an unspecified byte (10_state.md R35). -/
abbrev Memory := List Host.Cell

/-- One access of the host (10_state.md R17, R36, R37), or the `WAIT` loop of the host notation (30_encoding.md R78). -/
inductive HostOp where
  /-- `RD`: read the register at index `i` -/
  | rdReg (i : Nat)
  /-- `WR`: write `v` to the register at index `i` -/
  | wrReg (i : Nat) (v : Word)
  /-- read the IN byte at `a` -/
  | rdIn (a : Nat)
  /-- one byte write of `WRIN` -/
  | wrIn (a : Nat) (b : Byte)
  /-- one byte read of `RDOUT` -/
  | rdOut (a : Nat)
  /-- a byte write to OUT, which has no effect (10_state.md R37) -/
  | wrOut (a : Nat) (b : Byte)
  /-- `WAIT`: repeat `RD STATUS` until bit 0 is 0 -/
  | wait
deriving DecidableEq, Repr

/-- Who moves in a step: the host, the engine (10_state.md R17), or the reset input (70_reset_and_hazards.md R134). -/
inductive Turn where
  | host
  | engine
  | reset
deriving DecidableEq, Repr

/-- What a command hands to the completion step when it ends without error: `Done(out, rv, rl, ro)` of 10_state.md R35. -/
structure Done where
  out : List Byte
  rv : Nat
  rl : Bool
  ro : Nat
deriving DecidableEq, Repr

/-- What ends a command early: an error with its position (00_scope.md R14 `raise E(pos)`), or a read of an IN byte that
has no value, which the model refuses (60_exceptions.md R133). -/
inductive Stop where
  | err (code : ErrCode) (pos : Nat)
  | uninit (addr : Nat)
deriving DecidableEq, Repr

/-- The faults of the model. The spec gives the block none: an ERROR completion "is not a model fault"
(60_exceptions.md R133), a hung engine is excluded by R144, and accesses outside a window have a defined result
(20_memory.md R42). So no one raises one, and there is no constructor (assumption log 16). -/
inductive Fault where
deriving DecidableEq, Repr

/-- What the model refuses to give a meaning. -/
inductive Refusal where
  /-- raised by `exec` for an instruction that has no meaning in the model yet; safe. No arm raises it. -/
  | notModelled (mnemonic : String)
  /-- UNINIT_READ: raised by DECODE_VALUE, DECODE_SECTION, ENCODE and DECODE when they read the IN byte at `addr`, which
  the host has not written since reset (10_state.md R36, 60_exceptions.md R133); safe ("errs toward unprovable") -/
  | uninitRead (addr : Nat)
deriving DecidableEq, Repr

/-- Everything the spec gives the block (10_state.md), the chip's parameters, and the block's inputs. -/
structure State where
  /-- VAL_W, IN_CAP, OUT_CAP and the bases (00_scope.md section 4); no step changes it -/
  cfg : Params
  /-- the engine's phase (R18) -/
  phase : Phase
  /-- index 0x0, CMD.OP (R21) -/
  cmdOp : BitVec 4
  /-- index 0x1, STATUS (R22) -/
  status : Word
  /-- index 0x2, IN_LEN (R23) -/
  inLen : Word
  /-- index 0x3, ARG_OFFSET (R24) -/
  argOffset : Word
  /-- index 0x4, ARG_VALUE (R25) -/
  argValue : Word
  /-- index 0x5, ARG_LITERAL.LIT (R26) -/
  argLit : Bool
  /-- index 0x6, RES_VALUE (R27) -/
  resValue : Word
  /-- index 0x7, RES_LITERAL.LIT (R28) -/
  resLit : Bool
  /-- index 0x8, RES_OFFSET (R29) -/
  resOffset : Word
  /-- index 0x9, OUT_LEN (R30) -/
  outLen : Word
  /-- index 0xA, ERR_POS (R31) -/
  errPos : Word
  /-- the latched operands (R34, R39) -/
  latch : Latch
  /-- the input memory (R36) -/
  inMem : Memory
  /-- the output memory (R37) -/
  outMem : Memory
  /-- the model's own: how many free values have been drawn (assumption log 5) -/
  draws : Nat
  /-- the model's own: the accesses the host has still to issue, next first (20_memory.md R51; assumption log 4) -/
  queue : List HostOp
  /-- the model's own: who moves in the next steps, next first (10_state.md R17; assumption log 3) -/
  turns : List Turn
  /-- the model's own: the values the host's reads returned, newest first (assumption log 4) -/
  returned : List Word
deriving DecidableEq, Repr

/-- The block with parameters `c` right after reset (70_reset_and_hazards.md R134, R135): IDLE, every register 0, IN
and OUT unspecified. The latch is zero by DESIGN CHOICE (assumption log 9), and no input is pending. -/
def State.resetOf (c : Params) : State where
  cfg := c
  phase := .idle
  cmdOp := 0
  status := 0
  inLen := 0
  argOffset := 0
  argValue := 0
  argLit := false
  resValue := 0
  resLit := false
  resOffset := 0
  outLen := 0
  errPos := 0
  latch := { op := 0, inLen := 0, argOffset := 0, argValue := 0, lit := false }
  inMem := []
  outMem := []
  draws := 0
  queue := []
  turns := []
  returned := []

/-- The block right after reset, with the parameters of assumption log 1. -/
def State.reset : State := State.resetOf Params.vectors

end Sys2Proof.Machine
end

