-- ==== Sys2Proof/Machine/Flags.lean ====
section
/-! DEFINITION. The STATUS register: its fields and its legal values (10_state.md R22, R38), and the error codes
(60_exceptions.md R115). -/

namespace Sys2Proof.Machine

/-- The code of an error (60_exceptions.md R115). -/
def ErrCode.code : ErrCode → Word
  | .trunc => 0x1
  | .overflow => 0x2
  | .outFull => 0x3
  | .offset => 0x4
  | .arg => 0x5
  | .badCmd => 0x6

/-- STATUS while a command runs: BUSY = 1 and nothing else (10_state.md R33). -/
def statusBusy : Word := 0x001

/-- STATUS after DONE (10_state.md R35). -/
def statusDone : Word := 0x002

/-- STATUS after an error: `0x004 | (code << 8)` (10_state.md R35). -/
def statusError (c : ErrCode) : Word := 0x004 ||| (c.code <<< 8)

/-- STATUS.BUSY, bit 0 (10_state.md R22). -/
def busyBit (w : Word) : Bool := w.getLsbD 0

/-- STATUS.DONE, bit 1 (10_state.md R22). -/
def doneBit (w : Word) : Bool := w.getLsbD 1

/-- STATUS.ERROR, bit 2 (10_state.md R22). -/
def errorBit (w : Word) : Bool := w.getLsbD 2

/-- STATUS.ERR_CODE, bits [11:8] (10_state.md R22). -/
def errCodeField (w : Word) : BitVec 4 := w.extractLsb' 8 4

end Sys2Proof.Machine
end

