-- ==== Sys2Proof/Machine/Operands.lean ====
section
/-! DEFINITION. How a command reaches its operands and its output: reads of IN, the operand range checks
(60_exceptions.md R116), and `emit` (60_exceptions.md R117). A command reads IN through a function that answers the byte
at an address, or none for a byte that has no value. -/

namespace Sys2Proof.Machine

/-- `MemRead(IN, a, 1)` (00_scope.md R14). A byte not written since reset stops the command (10_state.md R36). -/
def readByte (rd : Nat → Option Byte) (a : Nat) : Except Stop Byte :=
  match rd a with
  | some b => .ok b
  | none => .error (.uninit a)

/-- The slice of `k` bytes from address `a`, read in rising order (00_scope.md R13 `in[a, a + k)`). -/
def readSlice (rd : Nat → Option Byte) : Nat → Nat → Except Stop (List Byte)
  | _, 0 => .ok []
  | a, k + 1 =>
    match readByte rd a with
    | .error e => .error e
    | .ok b =>
      match readSlice rd (a + 1) k with
      | .error e => .error e
      | .ok bs => .ok (b :: bs)

/-- `emit(s, pos)`: `s` appended to the output, or E_OUT_FULL(pos) when it would pass OUT_CAP (60_exceptions.md R117). -/
def emit (cap : Nat) (out s : List Byte) (pos : Nat) : Except Stop (List Byte) :=
  if cap < out.length + s.length then .error (.err .outFull pos) else .ok (out ++ s)

/-- `emit(repeat(b, n), pos)`. The room is tested on the count `n`, so a run that does not fit is never built
(60_exceptions.md R117: "The test is on exact integers"). -/
def emitRepeat (cap : Nat) (out : List Byte) (b : Byte) (n pos : Nat) : Except Stop (List Byte) :=
  if cap < out.length + n then .error (.err .outFull pos) else .ok (out ++ List.replicate n b)

/-- The check of the commands that read IN: E_ARG(0) when IN_LEN > IN_CAP (60_exceptions.md R116). -/
def checkInLen (c : Params) (l : Latch) : Except Stop Unit :=
  if c.inCap < l.inLen.toNat then .error (.err .arg 0) else .ok ()

/-- The check of DECODE_VALUE and DECODE_SECTION: E_OFFSET(ARG_OFFSET) when ARG_OFFSET > IN_LEN (40_varint.md R85,
41_section_header.md R92). -/
def checkOffset (l : Latch) : Except Stop Unit :=
  if l.inLen.toNat < l.argOffset.toNat then .error (.err .offset l.argOffset.toNat) else .ok ()

end Sys2Proof.Machine
end

