-- ==== Sys2Proof/Machine/Ops.lean ====
section
/-! DEFINITION. The named operations over the memories and the registers: memory reads and writes, the register window
(10_state.md R20), command start (R33, R34), command completion and error entry (R35, 60_exceptions.md R121), and reset
(70_reset_and_hazards.md R134). There is no return from an error (60_exceptions.md R123): the next command start clears
STATUS. -/

namespace Sys2Proof.Machine

/-- The byte at an address, none where it has no value. -/
def Memory.read : Memory → Nat → Option Byte
  | [], _ => none
  | (k, b) :: m, a => if a = k then some b else Memory.read m a

/-- Write one byte, keeping the addresses strictly rising. -/
def Memory.write : Memory → Nat → Byte → Memory
  | [], a, b => [(a, b)]
  | (k, c) :: m, a, b =>
    if a < k then (a, b) :: (k, c) :: m
    else if a = k then (a, b) :: m
    else (k, c) :: Memory.write m a b

/-- The memory that holds the given bytes from address `a` on and nothing else. -/
def Memory.ofBytesFrom : Nat → List Byte → Memory
  | _, [] => []
  | a, b :: bs => (a, b) :: Memory.ofBytesFrom (a + 1) bs

/-- OUT after DONE: the result bytes from address 0, every other byte unspecified (10_state.md R35). -/
def Memory.ofBytes (bs : List Byte) : Memory := Memory.ofBytesFrom 0 bs

/-- The canonical form: addresses strictly rising. (An unlisted address has no value, so no entry can equal one.) -/
def Memory.wf : Memory → Bool
  | [] => true
  | [_] => true
  | (a, _) :: (k, c) :: m => decide (a < k) && Memory.wf ((k, c) :: m)

/-- A single-bit field in bit 0 of a register, the rest 0 (10_state.md R26, R28). -/
def litWord (l : Bool) : Word := if l then 1 else 0

/-- The stored value of the register at an index: the map of 10_state.md R20, 0 for the reserved indices (R32) and for
an index outside the window (20_memory.md R42). -/
def regValue (i : Nat) (s : State) : Word :=
  match i with
  | 0x0 => s.cmdOp.setWidth 64
  | 0x1 => s.status
  | 0x2 => s.inLen
  | 0x3 => s.argOffset
  | 0x4 => s.argValue
  | 0x5 => litWord s.argLit
  | 0x6 => s.resValue
  | 0x7 => litWord s.resLit
  | 0x8 => s.resOffset
  | 0x9 => s.outLen
  | 0xA => s.errPos
  | _ => 0

/-- The result registers RES_VALUE to ERR_POS, whose reads while BUSY are unspecified (10_state.md R20). -/
def isResultReg (i : Nat) : Bool := decide (0x6 ≤ i) && decide (i ≤ 0xA)

/-- Command start by a CMD write of `v`, with the latch (10_state.md R33, R34). It also clears DONE, ERROR and ERR_CODE,
which is all the return from an error there is (60_exceptions.md R123). -/
def startCommand (v : Word) (s : State) : State :=
  { s with
    cmdOp := opField v
    latch :=
      { op := opField v, inLen := s.inLen, argOffset := s.argOffset, argValue := s.argValue, lit := s.argLit }
    status := statusBusy
    phase := .busy }

/-- The command the engine runs: the decoding of the latched operation (10_state.md R34, R35). -/
def fetch (s : State) : Instr := decode (s.latch.op.setWidth 64)

/-- A register write that takes effect, in the phase IDLE (10_state.md R20 to R33). A write to a read-only register, a
reserved index (R32) or an index outside the window (20_memory.md R42) has no effect. -/
def writeReg (i : Nat) (v : Word) (s : State) : State :=
  match i with
  | 0x0 => startCommand v s
  | 0x2 => { s with inLen := v }
  | 0x3 => { s with argOffset := v }
  | 0x4 => { s with argValue := v }
  | 0x5 => { s with argLit := v.getLsbD 0 }
  | _ => s

/-- Completion without error: the `Done` case of 10_state.md R35. OUT past the result is unspecified. -/
def completeDone (d : Done) (s : State) : State :=
  { s with
    outMem := Memory.ofBytes d.out
    resValue := BitVec.ofNat 64 d.rv
    resLit := d.rl
    resOffset := BitVec.ofNat 64 d.ro
    outLen := BitVec.ofNat 64 d.out.length
    errPos := 0
    status := statusDone
    phase := .idle }

/-- Error entry: the `Err` case of 10_state.md R35, precise and in one step (60_exceptions.md R121). All of OUT is
unspecified. -/
def completeError (c : ErrCode) (pos : Nat) (s : State) : State :=
  { s with
    outMem := []
    resValue := 0
    resLit := false
    resOffset := 0
    outLen := 0
    errPos := BitVec.ofNat 64 pos
    status := statusError c
    phase := .idle }

/-- The complete step on the result of a command's Exec (10_state.md R35), with the refusal of 60_exceptions.md R133. -/
def complete (r : Except Stop Done) (s : State) : Host.Outcome State Fault Refusal :=
  match r with
  | .ok d => .next (completeDone d s)
  | .error (.err c pos) => .next (completeError c pos s)
  | .error (.uninit a) => .refused (.uninitRead a)

/-- The reset input (70_reset_and_hazards.md R134, R136). The chip's parameters are fixed, and the host's side (what it
will still do, what it has read) and the draw count are not the block's, so they stay (assumption log 12). -/
def applyReset (s : State) : State :=
  { State.resetOf s.cfg with
    draws := s.draws
    queue := s.queue
    turns := s.turns
    returned := s.returned }

end Sys2Proof.Machine
end

