-- ==== Sys2Proof/Machine/Reserved.lean ====
section
/-! DEFINITION. The reserved command codes (30_encoding.md R63, 60_exceptions.md R118). -/

namespace Sys2Proof.Machine

/-- `Exec` of a reserved code: `raise E_BADCMD(0)`, reading no operand and no IN byte (60_exceptions.md R118). -/
def badCommand (s : State) : Host.Outcome State Fault Refusal := complete (.error (.err .badCmd 0)) s

/-- OP = 0x0 (60_exceptions.md R118). -/
def execReserved0 (s : State) : Host.Outcome State Fault Refusal := badCommand s

/-- OP = 0x7 (60_exceptions.md R118). -/
def execReserved7 (s : State) : Host.Outcome State Fault Refusal := badCommand s

/-- OP = 0x8 to 0xF (60_exceptions.md R118). -/
def execReserved8toF (_op : BitVec 4) (s : State) : Host.Outcome State Fault Refusal := badCommand s

end Sys2Proof.Machine
end

