-- ==== Sys2Proof/Machine/Varint.lean ====
section
/-! DEFINITION. varint_encoder and varint_decoder (40_varint.md): the varint functions and the commands ENCODE_VALUE and
DECODE_VALUE. -/

namespace Sys2Proof.Machine

/-- The byte count of 40_varint.md R80 by repeated integer shifting (R81). A positive value shifts to 0 within as many
shifts as itself, so `varintLen n` gives it that many. -/
def varintLenLoop : Nat → Nat → Nat
  | 0, _ => 0
  | f + 1, t => if t = 0 then 0 else 1 + varintLenLoop f (t >>> 7)

/-- `vlen(n)` (30_encoding.md R67). -/
def varintLen (n : Nat) : Nat := varintLenLoop n n

/-- The byte for group `i`, counted from the least significant: continuation bit on every byte but the last (40_varint.md
R80). -/
def groupByte (n i : Nat) : Byte :=
  BitVec.ofNat 8 ((if i = 0 then 0x00 else 0x80) ||| ((n >>> (7 * i)) &&& 0x7F))

/-- The bytes for the groups k-1 down to 0 (40_varint.md R80). -/
def varintBytes (n : Nat) : Nat → List Byte
  | 0 => []
  | i + 1 => groupByte n i :: varintBytes n i

/-- `VarintEncode(n)` (40_varint.md R80). The value 0 has length 0 and encodes to the empty sequence. -/
def varintEncode (n : Nat) : List Byte := varintBytes n (varintLen n)

/-- The group bits of a varint byte, G = bits [6:0] (30_encoding.md R64). -/
def groupBits (b : Byte) : Nat := b.toNat &&& 0x7F

/-- The continuation bit of a varint byte, C = bit 7 (30_encoding.md R64). -/
def contBit (b : Byte) : Bool := b.getLsbD 7

/-- The loop of `VarintDecode` (40_varint.md R82) at position `p` with accumulator `acc`. The first number is
`len - p`, how many bytes are left, so at 0 the next byte is absent. -/
def varintLoop (w : Nat) (rd : Nat → Option Byte) (off : Nat) : Nat → Nat → Nat → Except Stop (Nat × Nat)
  | 0, _, _ => .error (.err .trunc off)
  | f + 1, p, acc =>
    match readByte rd p with
    | .error e => .error e
    | .ok b =>
      if 2 ^ (w - 7) ≤ acc then .error (.err .overflow off)
      else if contBit b then varintLoop w rd off f (p + 1) (acc <<< 7 ||| groupBits b)
      else .ok (acc <<< 7 ||| groupBits b, p + 1)

/-- `VarintDecode(in, len, off)` for off <= len (40_varint.md R82): the value and the offset just past its last byte. -/
def varintDecode (w : Nat) (rd : Nat → Option Byte) (len off : Nat) : Except Stop (Nat × Nat) :=
  if off = len then .ok (0, off) else varintLoop w rd off (len - off) off 0

/-- `Exec(ENCODE_VALUE)` (40_varint.md R84). -/
def encodeValueExec (c : Params) (l : Latch) : Except Stop Done :=
  if 2 ^ c.valW ≤ l.argValue.toNat then .error (.err .arg 0)
  else .ok { out := varintEncode l.argValue.toNat, rv := 0, rl := false, ro := 0 }

/-- `Exec(DECODE_VALUE)` (40_varint.md R85). -/
def decodeValueExec (c : Params) (l : Latch) (rd : Nat → Option Byte) : Except Stop Done :=
  match checkInLen c l with
  | .error e => .error e
  | .ok () =>
    match checkOffset l with
    | .error e => .error e
    | .ok () =>
      match varintDecode c.valW rd l.inLen.toNat l.argOffset.toNat with
      | .error e => .error e
      | .ok (v, p) => .ok { out := [], rv := v, rl := false, ro := p }

/-- ENCODE_VALUE (40_varint.md R84). -/
def execEncodeValue (s : State) : Host.Outcome State Fault Refusal :=
  complete (encodeValueExec s.cfg s.latch) s

/-- DECODE_VALUE (40_varint.md R85). -/
def execDecodeValue (s : State) : Host.Outcome State Fault Refusal :=
  complete (decodeValueExec s.cfg s.latch s.inMem.read) s

end Sys2Proof.Machine
end

