-- ==== Sys2Proof/Machine/SectionHeader.lean ====
section
/-! DEFINITION. The section header codec (41_section_header.md): the section functions and the commands ENCODE_SECTION
and DECODE_SECTION. -/

namespace Sys2Proof.Machine

/-- The header value h = length * 2 + (literal ? 1 : 0) (30_encoding.md R70). -/
def headerValue (length : Nat) (literal : Bool) : Nat := length * 2 + (if literal then 1 else 0)

/-- `SectionEncode(length, literal)` (41_section_header.md R89). -/
def sectionEncode (length : Nat) (literal : Bool) : List Byte := varintEncode (headerValue length literal)

/-- `SectionDecode(in, len, off)` (41_section_header.md R90): length, literal and the offset past the header. -/
def sectionDecode (w : Nat) (rd : Nat → Option Byte) (len off : Nat) : Except Stop (Nat × Bool × Nat) :=
  match varintDecode w rd len off with
  | .error e => .error e
  | .ok (v, p) => .ok (v >>> 1, v.testBit 0, p)

/-- `Exec(ENCODE_SECTION)` (41_section_header.md R91). -/
def encodeSectionExec (c : Params) (l : Latch) : Except Stop Done :=
  if 2 ^ (c.valW - 1) ≤ l.argValue.toNat then .error (.err .arg 0)
  else .ok { out := sectionEncode l.argValue.toNat l.lit, rv := 0, rl := false, ro := 0 }

/-- `Exec(DECODE_SECTION)` (41_section_header.md R92). -/
def decodeSectionExec (c : Params) (l : Latch) (rd : Nat → Option Byte) : Except Stop Done :=
  match checkInLen c l with
  | .error e => .error e
  | .ok () =>
    match checkOffset l with
    | .error e => .error e
    | .ok () =>
      match sectionDecode c.valW rd l.inLen.toNat l.argOffset.toNat with
      | .error e => .error e
      | .ok (length, literal, p) => .ok { out := [], rv := length, rl := literal, ro := p }

/-- ENCODE_SECTION (41_section_header.md R91). -/
def execEncodeSection (s : State) : Host.Outcome State Fault Refusal :=
  complete (encodeSectionExec s.cfg s.latch) s

/-- DECODE_SECTION (41_section_header.md R92). -/
def execDecodeSection (s : State) : Host.Outcome State Fault Refusal :=
  complete (decodeSectionExec s.cfg s.latch s.inMem.read) s

end Sys2Proof.Machine
end

