-- ==== Sys2Proof/Machine/RleDecoder.lean ====
section
/-! DEFINITION. rle_decoder (43_rle_decoder.md): RleDecode and the command DECODE. -/

namespace Sys2Proof.Machine

/-- The payload of a section whose header (length, literal) ends at `p` and starts at `h0`: the bounds check before any
read (43_rle_decoder.md R104, R108), then the output. It answers the output and the new cursor. -/
def decodePayload (cap : Nat) (rd : Nat → Option Byte) (n h0 p length : Nat) (literal : Bool) (out : List Byte) :
    Except Stop (List Byte × Nat) :=
  if literal then
    if n < p + length then .error (.err .trunc h0)
    else
      match readSlice rd p length with
      | .error e => .error e
      | .ok s =>
        match emit cap out s h0 with
        | .error e => .error e
        | .ok out₁ => .ok (out₁, p + length)
  else
    if n < p + 1 then .error (.err .trunc h0)
    else
      match readByte rd p with
      | .error e => .error e
      | .ok b =>
        match emitRepeat cap out b length h0 with
        | .error e => .error e
        | .ok out₁ => .ok (out₁, p + 1)

/-- The loop of `RleDecode` (43_rle_decoder.md R104) with the cursor at `off`. Each pass moves the cursor on, so `n - off`
passes are enough, and with none left the cursor is at `n`, where the loop ends. -/
def rleDecodeLoop (w cap : Nat) (rd : Nat → Option Byte) (n : Nat) : Nat → Nat → List Byte → Except Stop (List Byte)
  | 0, _, out => .ok out
  | f + 1, off, out =>
    if off < n then
      match sectionDecode w rd n off with
      | .error e => .error e
      | .ok (length, literal, p) =>
        match decodePayload cap rd n off p length literal out with
        | .error e => .error e
        | .ok (out₁, off₁) => rleDecodeLoop w cap rd n f off₁ out₁
    else .ok out

/-- `RleDecode(in, n)` with an output memory of `cap` bytes (43_rle_decoder.md R104). -/
def rleDecode (w cap : Nat) (rd : Nat → Option Byte) (n : Nat) : Except Stop (List Byte) :=
  rleDecodeLoop w cap rd n n 0 []

/-- `Exec(DECODE)` (43_rle_decoder.md R111). -/
def decodeStreamExec (c : Params) (l : Latch) (rd : Nat → Option Byte) : Except Stop Done :=
  match checkInLen c l with
  | .error e => .error e
  | .ok () =>
    match rleDecode c.valW c.outCap rd l.inLen.toNat with
    | .error e => .error e
    | .ok out => .ok { out := out, rv := 0, rl := false, ro := 0 }

/-- DECODE (43_rle_decoder.md R111). -/
def execDecodeStream (s : State) : Host.Outcome State Fault Refusal :=
  complete (decodeStreamExec s.cfg s.latch s.inMem.read) s

end Sys2Proof.Machine
end

