-- ==== Sys2Proof/Machine/RleEncoder.lean ====
section
/-! DEFINITION. rle_encoder (42_rle_encoder.md): RleEncode and the command ENCODE. -/

namespace Sys2Proof.Machine

/-- `while i + 1 < n and in[i] != in[i+1]: i = i + 1` (42_rle_encoder.md R96). The first number is how many places with
i + 1 < n are left. -/
def findRun (rd : Nat → Option Byte) : Nat → Nat → Except Stop Nat
  | 0, i => .ok i
  | f + 1, i =>
    match readByte rd i with
    | .error e => .error e
    | .ok a =>
      match readByte rd (i + 1) with
      | .error e => .error e
      | .ok b => if a = b then .ok i else findRun rd f (i + 1)

/-- `while j < n and in[j] == in[runStart]: j = j + 1` (42_rle_encoder.md R96), `b` being in[runStart]. The first number
is how many places with j < n are left. -/
def extendRun (rd : Nat → Option Byte) (b : Byte) : Nat → Nat → Except Stop Nat
  | 0, j => .ok j
  | f + 1, j =>
    match readByte rd j with
    | .error e => .error e
    | .ok c => if c = b then extendRun rd b f (j + 1) else .ok j

/-- Emit in[off, stop) as one literal section with position `off`, if it is not empty (42_rle_encoder.md R96, steps 2 and
5; R98). -/
def emitLiteral (cap : Nat) (rd : Nat → Option Byte) (off stop : Nat) (out : List Byte) :
    Except Stop (List Byte) :=
  if off < stop then
    match readSlice rd off (stop - off) with
    | .error e => .error e
    | .ok s => emit cap out (sectionEncode (stop - off) true ++ s) off
  else .ok out

/-- The loop of `RleEncode` (42_rle_encoder.md R96) with the cursor at `off`. Each pass moves the cursor by two bytes or
more, so `n - off` passes are enough, and with none left the cursor is at `n`, where the loop returns `out`. -/
def rleEncodeLoop (cap : Nat) (rd : Nat → Option Byte) (n : Nat) : Nat → Nat → List Byte → Except Stop (List Byte)
  | 0, _, out => .ok out
  | f + 1, off, out =>
    match findRun rd (n - 1 - off) off with
    | .error e => .error e
    | .ok i =>
      if n ≤ i + 1 then emitLiteral cap rd off n out
      else
        match readByte rd i with
        | .error e => .error e
        | .ok b =>
          match extendRun rd b (n - (i + 1)) (i + 1) with
          | .error e => .error e
          | .ok j =>
            match emitLiteral cap rd off i out with
            | .error e => .error e
            | .ok out₁ =>
              match emit cap out₁ (sectionEncode (j - i) false ++ [b]) i with
              | .error e => .error e
              | .ok out₂ => rleEncodeLoop cap rd n f j out₂

/-- `RleEncode(in, n)` with an output memory of `cap` bytes (42_rle_encoder.md R96). -/
def rleEncode (cap : Nat) (rd : Nat → Option Byte) (n : Nat) : Except Stop (List Byte) :=
  rleEncodeLoop cap rd n n 0 []

/-- `ENC_BOUND(n)` (42_rle_encoder.md R102). -/
def encBound (n : Nat) : Nat :=
  if n = 0 then 0 else n + varintLen (2 * n + 1) * ((2 * n + 1) / 3)

/-- `Exec(ENCODE)` (42_rle_encoder.md R101). -/
def encodeStreamExec (c : Params) (l : Latch) (rd : Nat → Option Byte) : Except Stop Done :=
  match checkInLen c l with
  | .error e => .error e
  | .ok () =>
    match rleEncode c.outCap rd l.inLen.toNat with
    | .error e => .error e
    | .ok out => .ok { out := out, rv := 0, rl := false, ro := 0 }

/-- ENCODE (42_rle_encoder.md R101). -/
def execEncodeStream (s : State) : Host.Outcome State Fault Refusal :=
  complete (encodeStreamExec s.cfg s.latch s.inMem.read) s

end Sys2Proof.Machine
end

