-- ==== Sys2Proof/Machine/Dispatch.lean ====
section
/-! DEFINITION. The complete step of a command (10_state.md R35): one arm for each command. -/

namespace Sys2Proof.Machine

def exec (i : Instr) (s : State) : Host.Outcome State Fault Refusal :=
  match i with
  | .encodeValue => Sys2Proof.Machine.execEncodeValue s
  | .decodeValue => Sys2Proof.Machine.execDecodeValue s
  | .encodeSection => Sys2Proof.Machine.execEncodeSection s
  | .decodeSection => Sys2Proof.Machine.execDecodeSection s
  | .encodeStream => Sys2Proof.Machine.execEncodeStream s
  | .decodeStream => Sys2Proof.Machine.execDecodeStream s
  | .reserved0 => Sys2Proof.Machine.execReserved0 s
  | .reserved7 => Sys2Proof.Machine.execReserved7 s
  | .reserved8toF op => Sys2Proof.Machine.execReserved8toF op s

end Sys2Proof.Machine
end

