-- ==== Sys2Proof/Machine/HostPort.lean ====
section
/-! DEFINITION. The host's accesses (10_state.md R17, R20, R36, R37; 20_memory.md R42, R49, R51) and the host notation
of 30_encoding.md R78. -/

namespace Sys2Proof.Machine

/-- A read returns `v` to the host. No read has another effect (20_memory.md R49). -/
def returnValue (v : Word) (s : State) : State := { s with returned := v :: s.returned }

/-- A read of an unspecified byte: any byte, fresh per read (60_exceptions.md R133). -/
def returnFreeByte (s : State) : State :=
  { s with returned := (Config.freeByte s.draws).setWidth 64 :: s.returned, draws := s.draws + 1 }

/-- A read of an unspecified register: any 64-bit value, fresh per read (60_exceptions.md R133). -/
def returnFreeWord (s : State) : State :=
  { s with returned := Config.freeWord s.draws :: s.returned, draws := s.draws + 1 }

/-- A register read. While BUSY a result register gives an unspecified value, and every other index its stored value
(10_state.md R20). -/
def hostReadReg (i : Nat) (s : State) : State :=
  match s.phase with
  | .idle => returnValue (regValue i s) s
  | .busy => if isResultReg i then returnFreeWord s else returnValue (regValue i s) s

/-- A register write. While BUSY it has no effect (10_state.md R20). -/
def hostWriteReg (i : Nat) (v : Word) (s : State) : State :=
  match s.phase with
  | .idle => writeReg i v s
  | .busy => s

/-- A byte read of a memory of `cap` bytes: 0 outside the window (20_memory.md R42), the stored byte inside it, any
byte where none is stored. -/
def returnMemByte (m : Memory) (cap a : Nat) (s : State) : State :=
  if a < cap then
    match m.read a with
    | some b => returnValue (b.setWidth 64) s
    | none => returnFreeByte s
  else returnValue 0 s

/-- A host read of IN, in either phase (10_state.md R36; 92_eei_decisions.md D19). A byte not written since reset has
unspecified contents, so the read gives any byte (assumption log 8). -/
def hostReadIn (a : Nat) (s : State) : State := returnMemByte s.inMem s.cfg.inCap a s

/-- A host write to IN: no effect while BUSY (10_state.md R36) or outside the window (20_memory.md R42). -/
def hostWriteIn (a : Nat) (b : Byte) (s : State) : State :=
  match s.phase with
  | .idle => if a < s.cfg.inCap then { s with inMem := s.inMem.write a b } else s
  | .busy => s

/-- A host read of OUT: the stored byte while IDLE, any byte while BUSY (10_state.md R37). -/
def hostReadOut (a : Nat) (s : State) : State :=
  match s.phase with
  | .idle => returnMemByte s.outMem s.cfg.outCap a s
  | .busy => returnMemByte [] s.cfg.outCap a s

/-- The effect of one access. `WAIT` is one `RD STATUS` here; `hostStep` says whether it is repeated. -/
def hostOp (op : HostOp) (s : State) : State :=
  match op with
  | .rdReg i => hostReadReg i s
  | .wrReg i v => hostWriteReg i v s
  | .rdIn a => hostReadIn a s
  | .wrIn a b => hostWriteIn a b s
  | .rdOut a => hostReadOut a s
  | .wrOut _ _ => s
  | .wait => hostReadReg 0x1 s

/-- Whether an access stays at the head of the queue: `WAIT` repeats while bit 0 of STATUS is 1 (30_encoding.md R78). -/
def staysQueued (op : HostOp) (s : State) : Bool :=
  match op with
  | .wait => busyBit s.status
  | .rdReg _ | .wrReg _ _ | .rdIn _ | .wrIn _ _ | .rdOut _ | .wrOut _ _ => false

/-- The host's step: its next access in issue order (20_memory.md R51). A host with no access to issue does nothing. -/
def hostStep (s : State) : State :=
  match s.queue with
  | [] => s
  | op :: rest => hostOp op { s with queue := if staysQueued op s then op :: rest else rest }

/-- `GO <mnemonic>`: `WR CMD, <OP of mnemonic>` (30_encoding.md R78). -/
def goOps (i : Instr) : List HostOp := [.wrReg 0x0 (encode i)]

/-- `RUN <mnemonic>`: `GO <mnemonic>` then `WAIT` (30_encoding.md R78). -/
def runOps (i : Instr) : List HostOp := goOps i ++ [.wait]

/-- `WRIN <a>, [b0, b1, ...]`: one IN byte write per byte, at a, a+1, ... (30_encoding.md R78). -/
def wrInOps : Nat → List Byte → List HostOp
  | _, [] => []
  | a, b :: bs => .wrIn a b :: wrInOps (a + 1) bs

/-- `RDOUT <a>, <n>`: n OUT byte reads at a to a+n-1 (30_encoding.md R78). -/
def rdOutOps : Nat → Nat → List HostOp
  | _, 0 => []
  | a, n + 1 => .rdOut a :: rdOutOps (a + 1) n

end Sys2Proof.Machine
end

