-- ==== Sys2Proof/Machine/Engine.lean ====
section
/-! DEFINITION. The engine's step, and whose turn it is (10_state.md R17). -/

namespace Sys2Proof.Machine

/-- The engine's step, enabled only while BUSY (10_state.md R17). A turn it is given while IDLE passes. -/
def engineStep (s : State) : Host.Outcome State Fault Refusal :=
  match s.phase with
  | .idle => .next s
  | .busy => exec (fetch s) s

/-- Who moves when `turns` is used up: the engine while BUSY, so a running command completes (70_reset_and_hazards.md
R144), and the host while IDLE (assumption log 3). -/
def defaultTurn : Phase → Turn
  | .idle => .host
  | .busy => .engine

/-- Whose turn it is, and the state with that turn taken (assumption log 3). -/
def nextTurn (s : State) : Turn × State :=
  match s.turns with
  | [] => (defaultTurn s.phase, s)
  | t :: ts => (t, { s with turns := ts })

/-- The step of the one whose turn it is (10_state.md R17, 70_reset_and_hazards.md R134). -/
def takeTurn (t : Turn) (s : State) : Host.Outcome State Fault Refusal :=
  match t with
  | .host => .next (hostStep s)
  | .engine => engineStep s
  | .reset => .next (applyReset s)

/-- The host has written the command word `w` to CMD, and the engine moves next (10_state.md R33; assumption log 11). -/
def placeCommand (w : Word) (s : State) : State :=
  { startCommand w s with turns := .engine :: s.turns }

end Sys2Proof.Machine
end

