-- ==== Sys2Proof/Machine/Step.lean ====
section
/-! DEFINITION. One step of the block: a host access, the engine's complete step, or a reset (10_state.md R17). -/

namespace Sys2Proof.Machine

/-- One step: whose turn it is moves. -/
def step (s : State) : Host.Outcome State Fault Refusal := takeTurn (nextTurn s).1 (nextTurn s).2

/-- The word `w`, its bits above `nbits` zero, is the command the very next step runs (assumption log 11). -/
def State.withFetchWord (s : State) (nbits w : Nat) : State := placeCommand (BitVec.ofNat 64 (w % 2 ^ nbits)) s

end Sys2Proof.Machine
end

