-- ==== Sys2Proof/Safety.lean ====
section
/-! DEFINITION. The terms claims are stated in: the machine invariant, what a completion leaves, and the data formats of
30_encoding.md sections 2 to 4 said independently of the encoder and the decoder. -/

namespace Sys2Proof.Machine

/-- All error codes (60_exceptions.md R115). -/
def ErrCode.all : List ErrCode := [.trunc, .overflow, .outFull, .offset, .arg, .badCmd]

/-- The legal values of STATUS (10_state.md R22): idle since reset, busy, done, or an error with code 0x1 to 0x6. -/
def legalStatus (w : Word) : Bool :=
  decide (w = 0x000) || decide (w = 0x001) || decide (w = 0x002) ||
    ErrCode.all.any (fun c => decide (w = 0x004 ||| (c.code <<< 8)))

/-- What every state of a run meets, whatever the host does. -/
structure State.Inv (s : State) : Prop where
  /-- the chip's parameters meet 00_scope.md R9 -/
  cfg_wf : s.cfg.Wf
  /-- IN is in canonical form -/
  in_sorted : s.inMem.wf = true
  /-- no byte of IN is at or beyond IN_CAP (20_memory.md R41) -/
  in_window : ∀ c ∈ s.inMem, c.1 < s.cfg.inCap
  /-- the OUT bytes that have a value are exactly OUT[0, OUT_LEN) (10_state.md R35) -/
  out_defined : s.outMem.map Prod.fst = List.range s.outLen.toNat
  /-- no byte of OUT is at or beyond OUT_CAP (20_memory.md R43) -/
  out_window : s.outLen.toNat ≤ s.cfg.outCap
  /-- STATUS holds a legal value (10_state.md R22) -/
  status_legal : legalStatus s.status = true
  /-- STATUS.BUSY equals (phase == BUSY) (10_state.md R18) -/
  busy_phase : busyBit s.status = true ↔ s.phase = .busy
  /-- RES_VALUE[63:VAL_W] is 0 (10_state.md R27) -/
  res_value : s.resValue.toNat < 2 ^ s.cfg.valW
  /-- after an error every result is 0 (60_exceptions.md R121) -/
  error_results : errorBit s.status = true →
    s.resValue = 0 ∧ s.resLit = false ∧ s.resOffset = 0 ∧ s.outLen = 0
  /-- after DONE, ERR_POS is 0 (10_state.md R31) -/
  done_pos : doneBit s.status = true → s.errPos = 0
  /-- idle since reset: CMD and every result register still hold their reset value (70_reset_and_hazards.md R134) -/
  since_reset : s.status = 0 →
    s.cmdOp = 0 ∧ s.resValue = 0 ∧ s.resLit = false ∧ s.resOffset = 0 ∧ s.outLen = 0 ∧ s.errPos = 0
  /-- while BUSY the registers still hold what the command latched (10_state.md R20, R34) -/
  latched : s.phase = .busy →
    s.latch = ⟨s.cmdOp, s.inLen, s.argOffset, s.argValue, s.argLit⟩

/-- `t` is `s` after a command completed without error with this result: the `Done` case of 10_state.md R35. OUT holds the
result bytes, every other OUT byte has no value, and nothing else of the state differs from `s`. -/
def DoneWith (s t : State) (out : List Byte) (rv : Nat) (rl : Bool) (ro : Nat) : Prop :=
  t = { s with
        phase := .idle, status := 0x002, resValue := BitVec.ofNat 64 rv, resLit := rl,
        resOffset := BitVec.ofNat 64 ro, outLen := BitVec.ofNat 64 out.length, errPos := 0, outMem := t.outMem } ∧
    ∀ a, t.outMem.read a = out[a]?

/-- `t` is `s` after a command ended with error `c` at `pos`: the `Err` case of 10_state.md R35 and 60_exceptions.md R121.
No OUT byte has a value, and nothing else of the state differs from `s`. -/
def ErrorWith (s t : State) (c : ErrCode) (pos : Nat) : Prop :=
  t = { s with
        phase := .idle, status := 0x004 ||| (c.code <<< 8), resValue := 0, resLit := false, resOffset := 0,
        outLen := 0, errPos := BitVec.ofNat 64 pos, outMem := t.outMem } ∧
    ∀ a, t.outMem.read a = none

/-- A memory holds the bytes `bs` from address `a` on. -/
abbrev Holds (m : Memory) (a : Nat) (bs : List Byte) : Prop :=
  ∀ k, k < bs.length → m.read (a + k) = bs[k]?

/-- Every byte of a sequence has its continuation bit set. -/
def allCont (bs : List Byte) : Bool := bs.all contBit

/-- One varint: one byte or more, the continuation bit set on every byte but the last (30_encoding.md R64 to R66). -/
def isVarint : List Byte → Bool
  | [] => false
  | [b] => !contBit b
  | b :: c :: bs => contBit b && isVarint (c :: bs)

/-- The value of a varint's bytes: the sum over i of b[i][6:0] * 128^(k-1-i) (30_encoding.md R65). -/
def varintValue : List Byte → Nat
  | [] => 0
  | b :: bs => groupBits b * 128 ^ bs.length + varintValue bs

/-- The canonical varint of `n` (30_encoding.md R67): the empty sequence for 0, else a varint of value `n` whose first byte
is not 0x80. -/
def IsCanonicalVarint (n : Nat) (bs : List Byte) : Prop :=
  if n = 0 then bs = [] else isVarint bs = true ∧ varintValue bs = n ∧ bs.head? ≠ some 0x80

/-- A section of a stream that ENCODE produces (30_encoding.md R72). -/
inductive Section where
  | literal (bytes : List Byte)
  | run (length : Nat) (b : Byte)
deriving DecidableEq, Repr

/-- The header value of a section: length * 2 + literal (30_encoding.md R70). -/
def Section.headerValue : Section → Nat
  | .literal bytes => bytes.length * 2 + 1
  | .run length _ => length * 2

/-- The bytes a section stands for (30_encoding.md R72). -/
def Section.expand : Section → List Byte
  | .literal bytes => bytes
  | .run length b => List.replicate length b

/-- The bytes of a section: its canonical header varint and its payload (30_encoding.md R70, R72, R75 (g)). -/
def Section.bytes : Section → List Byte
  | .literal bytes => varintEncode (Section.literal bytes).headerValue ++ bytes
  | .run length b => varintEncode (Section.run length b).headerValue ++ [b]

/-- No two consecutive bytes are equal (30_encoding.md R75 (d)). -/
def noEqualNeighbours : List Byte → Bool
  | [] => true
  | [_] => true
  | a :: b :: bs => decide (a ≠ b) && noEqualNeighbours (b :: bs)

/-- 30_encoding.md R75 (a) and (d), for one section. -/
def Section.canonical : Section → Bool
  | .literal bytes => decide (bytes ≠ []) && noEqualNeighbours bytes
  | .run length _ => decide (2 ≤ length)

/-- 30_encoding.md R75 (b), (c), (e) and (f), for a section and the one after it. -/
def Section.mayPrecede : Section → Section → Bool
  | .literal _, .literal _ => false
  | .run _ b, .run _ c => decide (b ≠ c)
  | .run _ b, .literal bytes => decide (bytes.head? ≠ some b)
  | .literal bytes, .run _ b => decide (bytes.getLast? ≠ some b)

/-- A canonical stream as its list of sections (30_encoding.md R75). -/
def canonicalStream : List Section → Bool
  | [] => true
  | [x] => x.canonical
  | x :: y :: xs => x.canonical && x.mayPrecede y && canonicalStream (y :: xs)

/-- The bytes a list of sections stands for. -/
def expandAll (xs : List Section) : List Byte := xs.flatMap Section.expand

/-- The compressed stream of a list of sections: concatenated with no separators (30_encoding.md R74). -/
def streamBytes (xs : List Section) : List Byte := xs.flatMap Section.bytes

/-- A section as DECODE meets it: a header varint, canonical or not, and a payload (43_rle_decoder.md R109). -/
structure WireSection where
  header : List Byte
  payload : List Byte
deriving DecidableEq, Repr

/-- The header value of a wire section (30_encoding.md R65, R70). -/
def WireSection.value (x : WireSection) : Nat := varintValue x.header

/-- How many bytes a wire section stands for: length = h >> 1 (30_encoding.md R70). -/
def WireSection.size (x : WireSection) : Nat := x.value / 2

/-- A complete wire section: its header is a varint whose value fits in `w` bits, and its payload is `length` bytes for a
literal (odd header value), one byte for a run (30_encoding.md R72). -/
def WireSection.valid (w : Nat) (x : WireSection) : Bool :=
  isVarint x.header && decide (x.value < 2 ^ w) &&
    decide (x.payload.length = if x.value % 2 = 1 then x.size else 1)

/-- The bytes a wire section stands for (43_rle_decoder.md R106, R107). -/
def WireSection.expand (x : WireSection) : List Byte :=
  if x.value % 2 = 1 then x.payload else x.payload.flatMap (fun b => List.replicate x.size b)

/-- The bytes of a wire section. -/
def WireSection.bytes (x : WireSection) : List Byte := x.header ++ x.payload

/-- The bytes a list of wire sections stands for. -/
def wireExpand (xs : List WireSection) : List Byte := xs.flatMap WireSection.expand

/-- The bytes of a list of wire sections. -/
def wireBytes (xs : List WireSection) : List Byte := xs.flatMap WireSection.bytes

/-- Two states agree on the operands a command reads, by the "reads" column of 30_encoding.md R62 and the operand lists of
40_varint.md R84, R85, 41_section_header.md R91, R92, 42_rle_encoder.md R101 and 43_rle_decoder.md R111. -/
def SameOperands (i : Instr) (s s' : State) : Prop :=
  match i with
  | .encodeValue => s.latch.argValue = s'.latch.argValue
  | .encodeSection => s.latch.argValue = s'.latch.argValue ∧ s.latch.lit = s'.latch.lit
  | .decodeValue | .decodeSection =>
    s.latch.inLen = s'.latch.inLen ∧ s.latch.argOffset = s'.latch.argOffset ∧
      ∀ a, s.latch.argOffset.toNat ≤ a → a < s.latch.inLen.toNat → s.inMem.read a = s'.inMem.read a
  | .encodeStream | .decodeStream =>
    s.latch.inLen = s'.latch.inLen ∧ ∀ a, a < s.latch.inLen.toNat → s.inMem.read a = s'.inMem.read a
  | .reserved0 | .reserved7 | .reserved8toF _ => True

/-- Two outcomes of a command show the host the same: the same refusal, or the same STATUS, results and OUT bytes. -/
def SameResults (x y : Host.Outcome State Fault Refusal) : Prop :=
  match x, y with
  | .next t, .next t' =>
    t.status = t'.status ∧ t.resValue = t'.resValue ∧ t.resLit = t'.resLit ∧ t.resOffset = t'.resOffset ∧
      t.outLen = t'.outLen ∧ t.errPos = t'.errPos ∧ t.outMem = t'.outMem
  | .refused r, .refused r' => r = r'
  | .fault r, .fault r' => r = r'
  | .next _, .refused _ | .next _, .fault _ | .refused _, .next _ | .refused _, .fault _ | .fault _, .next _
  | .fault _, .refused _ => False

/-- The IN addresses a command may read (40_varint.md R85, 41_section_header.md R92, 42_rle_encoder.md R101, 43_rle_decoder.md
R111): below IN_LEN, from ARG_OFFSET on for the two varint decoders, and none when IN_LEN > IN_CAP, which is E_ARG. -/
def MayRead (i : Instr) (s : State) (a : Nat) : Prop :=
  match i with
  | .decodeValue | .decodeSection =>
    s.latch.inLen.toNat ≤ s.cfg.inCap ∧ s.latch.argOffset.toNat ≤ a ∧ a < s.latch.inLen.toNat
  | .encodeStream | .decodeStream => s.latch.inLen.toNat ≤ s.cfg.inCap ∧ a < s.latch.inLen.toNat
  | .encodeValue | .encodeSection | .reserved0 | .reserved7 | .reserved8toF _ => False

/-- Every IN byte a command may read has been written since reset (70_reset_and_hazards.md R137). -/
def InputWritten (i : Instr) (s : State) : Prop := ∀ a, MayRead i s a → (s.inMem.read a).isSome = true

end Sys2Proof.Machine
end

