-- ==== Sys2Proof/Certificates/Slice0/Obligations.lean ====
section
/-! DEFINITION. The statements for the provers, in the order of OBLIGATIONS.json. Each docstring names what of the spec it
formalises. -/

open Sys2Proof Sys2Proof.Machine

/-! ### Command words -/

/-- 30_encoding.md section 1: decoding the encoding of a well-formed command gives it back. Every command word selects a
well-formed command, by bits [3:0] alone, and encoding that command gives those four bits back. -/
def Obligations.DecodeAndEncodeAgree : Prop :=
  (∀ i : Instr, i.wellFormed = true → decode (encode i) = i) ∧
  ∀ w : Word, (decode w).wellFormed = true ∧ encode (decode w) = w &&& 0xF ∧
    ∀ w' : Word, decode w = decode w' ↔ w &&& 0xF = w' &&& 0xF

/-- 30_encoding.md section 1, the command map: words written out from it, some with reserved bits set. -/
def Obligations.CommandMapWords : Prop :=
  decode 0x0000000000000001 = .encodeValue ∧ decode 0x0000000000000002 = .decodeValue ∧
  decode 0x0000000000000003 = .encodeSection ∧ decode 0x0000000000000004 = .decodeSection ∧
  decode 0x0000000000000005 = .encodeStream ∧ decode 0x0000000000000006 = .decodeStream ∧
  decode 0x0000000000000010 = .reserved0 ∧ decode 0xFFFFFFFFFFFFFFF7 = .reserved7 ∧
  decode 0x0000000000000008 = .reserved8toF 8 ∧ decode 0x000000000000000F = .reserved8toF 15

/-! ### The step -/

/-- 10_state.md sections 1 and 4: while BUSY the engine's step runs exactly the command its latched operation decodes to,
on the state it stands in, when its turn comes and when no turn is left. While IDLE its turn passes. (That the engine
moves when no turn is left is the model's choice, assumption log 3.) -/
def Obligations.StepRunsTheLatchedCommand : Prop :=
  ∀ (s : State) (ts : List Turn) (i : Instr), decode (s.latch.op.setWidth 64) = i →
    (s.phase = .busy → s.turns = .engine :: ts → step s = exec i { s with turns := ts }) ∧
    (s.phase = .busy → s.turns = [] → step s = exec i s) ∧
    (s.phase = .idle → s.turns = .engine :: ts → step s = .next { s with turns := ts })

/-- The model's `withFetchWord` (assumption log 11): after it the next step is the run of the command of the word `w`, on
the state that 10_state.md section 4 gives after a CMD write of `w`. -/
def Obligations.StepAfterWithFetchWordRunsTheWord : Prop :=
  ∀ (s : State) (nbits w : Nat) (i : Instr), decodeTableWord nbits w = some i →
    step (s.withFetchWord nbits w) = exec i
      { s with
        cmdOp := BitVec.ofNat 4 (w % 2 ^ nbits)
        latch := ⟨BitVec.ofNat 4 (w % 2 ^ nbits), s.inLen, s.argOffset, s.argValue, s.argLit⟩
        status := 0x001
        phase := .busy }

/-- R33: the host's CMD write of `v` while IDLE stores OP, latches the operands, sets STATUS to 0x001 and the phase to BUSY,
in one step and with nothing else changed. While BUSY it has no effect. -/
def Obligations.CmdWriteStartsACommand : Prop :=
  ∀ (s : State) (v : Word) (q : List HostOp) (ts : List Turn),
    s.queue = .wrReg 0x0 v :: q → s.turns = .host :: ts →
    (s.phase = .idle →
      step s = .next { s with
        cmdOp := v.extractLsb' 0 4
        latch := ⟨v.extractLsb' 0 4, s.inLen, s.argOffset, s.argValue, s.argLit⟩
        status := 0x001
        phase := .busy
        queue := q
        turns := ts }) ∧
    (s.phase = .busy → step s = .next { s with queue := q, turns := ts })

/-- 70_reset_and_hazards.md section 3 with 10_state.md section 3: while BUSY no access of the host changes anything but what
the host has read (and the model's draw count). -/
def Obligations.HostAccessWhileBusyOnlyReads : Prop :=
  ∀ (s : State) (op : HostOp), s.phase = .busy →
    ∃ (d : Nat) (r : List Word), hostOp op s = { s with draws := d, returned := r ++ s.returned } ∧
      s.draws ≤ d ∧ d ≤ s.draws + 1 ∧ r.length ≤ 1

/-- 10_state.md section 3, the map: while IDLE a read of any index returns the stored value of that register, with the bits
outside its fields 0, and changes nothing else. -/
def Obligations.RegisterReadsFollowTheMap : Prop :=
  ∀ (s : State) (i : Nat), s.phase = .idle →
    hostOp (.rdReg i) s = { s with
      returned :=
        [s.cmdOp.setWidth 64, s.status, s.inLen, s.argOffset, s.argValue, (if s.argLit then 1 else 0), s.resValue,
          (if s.resLit then 1 else 0), s.resOffset, s.outLen, s.errPos].getD i (0 : Word) :: s.returned }

/-- 10_state.md section 3: while BUSY a read of CMD to ARG_LITERAL or of a reserved index returns the stored value, and a
read of a result register returns a value nothing constrains, drawn for this read. -/
def Obligations.RegisterReadsWhileBusy : Prop :=
  ∀ (s : State) (i : Nat), s.phase = .busy →
    (i < 6 ∨ 11 ≤ i → hostOp (.rdReg i) s = { s with
      returned :=
        [s.cmdOp.setWidth 64, s.status, s.inLen, s.argOffset, s.argValue, (if s.argLit then 1 else 0)].getD i (0 : Word)
          :: s.returned }) ∧
    (6 ≤ i → i ≤ 10 → hostOp (.rdReg i) s =
      { s with returned := Config.freeWord s.draws :: s.returned, draws := s.draws + 1 })

/-- 10_state.md section 3: while IDLE a write to IN_LEN, ARG_OFFSET or ARG_VALUE stores all 64 bits, one to ARG_LITERAL stores
bit 0, and one to a read-only register has no effect. -/
def Obligations.OperandRegisterWrites : Prop :=
  ∀ (s : State) (v : Word), s.phase = .idle →
    hostOp (.wrReg 0x2 v) s = { s with inLen := v } ∧
    hostOp (.wrReg 0x3 v) s = { s with argOffset := v } ∧
    hostOp (.wrReg 0x4 v) s = { s with argValue := v } ∧
    hostOp (.wrReg 0x5 v) s = { s with argLit := v.getLsbD 0 } ∧
    ∀ i ∈ [0x1, 0x6, 0x7, 0x8, 0x9, 0xA], hostOp (.wrReg i v) s = s

/-- R32: a reserved index reads as 0 and ignores writes, in either phase. -/
def Obligations.ReservedRegistersReadZero : Prop :=
  ∀ (s : State) (i : Nat) (v : Word), 0xB ≤ i → i ≤ 0xF →
    hostOp (.rdReg i) s = { s with returned := 0 :: s.returned } ∧ hostOp (.wrReg i v) s = s

/-- 20_memory.md section 1: an access outside a window has no effect, and a read of one returns 0. That this holds for an OUT
read while BUSY too, where R42 and R37 both apply, is the model's choice (assumption log 13). -/
def Obligations.AccessOutsideAWindow : Prop :=
  ∀ (s : State) (a : Nat) (b : Byte) (v : Word),
    (s.cfg.inCap ≤ a → hostOp (.rdIn a) s = { s with returned := 0 :: s.returned } ∧ hostOp (.wrIn a b) s = s) ∧
    (s.cfg.outCap ≤ a → hostOp (.rdOut a) s = { s with returned := 0 :: s.returned } ∧ hostOp (.wrOut a b) s = s) ∧
    (0xF < a → hostOp (.rdReg a) s = { s with returned := 0 :: s.returned } ∧ hostOp (.wrReg a v) s = s)

/-- 10_state.md section 5: an IN write while IDLE and inside the window stores its byte, keeps the canonical form and every
other byte, and changes nothing but IN. While BUSY it has no effect. -/
def Obligations.InWriteStoresOneByte : Prop :=
  ∀ (s : State) (a : Nat) (b : Byte), a < s.cfg.inCap → s.inMem.wf = true →
    (s.phase = .busy → hostOp (.wrIn a b) s = s) ∧
    (s.phase = .idle → ∃ m : Memory, hostOp (.wrIn a b) s = { s with inMem := m } ∧ m.wf = true ∧
      ∀ x, m.read x = if x = a then some b else s.inMem.read x)

/-- 10_state.md section 5: inside the window a host read of IN or OUT returns the stored byte, an unspecified byte gives a
value nothing constrains (for a byte of IN the host has not written this is the model's reading, assumption log 8), an
OUT read while BUSY always gives such a value, and a write to OUT has no effect. -/
def Obligations.MemoryReadsReturnTheStoredByte : Prop :=
  ∀ (s : State) (a : Nat) (b : Byte),
    (a < s.cfg.inCap → s.inMem.read a = some b →
      hostOp (.rdIn a) s = { s with returned := b.setWidth 64 :: s.returned }) ∧
    (a < s.cfg.inCap → s.inMem.read a = none →
      hostOp (.rdIn a) s =
        { s with returned := (Config.freeByte s.draws).setWidth 64 :: s.returned, draws := s.draws + 1 }) ∧
    (a < s.cfg.outCap → s.phase = .idle → s.outMem.read a = some b →
      hostOp (.rdOut a) s = { s with returned := b.setWidth 64 :: s.returned }) ∧
    (a < s.cfg.outCap → s.phase = .busy ∨ s.outMem.read a = none →
      hostOp (.rdOut a) s =
        { s with returned := (Config.freeByte s.draws).setWidth 64 :: s.returned, draws := s.draws + 1 }) ∧
    hostOp (.wrOut a b) s = s

/-- 30_encoding.md section 7: `WAIT` reads STATUS, and stays the host's next access exactly while bit 0 of what it read
is 1. -/
def Obligations.WaitRepeatsWhileBusyBitIsSet : Prop :=
  ∀ (s : State) (q : List HostOp), s.queue = .wait :: q →
    hostStep s = { s with
      returned := s.status :: s.returned
      queue := if s.status.getLsbD 0 then .wait :: q else q }

/-- 70_reset_and_hazards.md section 1: a reset, in either phase, makes the phase IDLE and every register 0, and leaves no
byte of IN or OUT with a value. (The parameters, the host's side and the zero latch are the model's choice, assumption
logs 9 and 12.) -/
def Obligations.ResetClearsEveryRegister : Prop :=
  ∀ (s : State) (ts : List Turn), s.turns = .reset :: ts →
    ∃ t, step s = .next t ∧ t.phase = .idle ∧ (∀ i, regValue i t = 0) ∧
      (∀ a, t.inMem.read a = none ∧ t.outMem.read a = none) ∧
      t.cfg = s.cfg ∧ t.queue = s.queue ∧ t.turns = ts ∧ t.returned = s.returned ∧ t.draws = s.draws

/-- 70_reset_and_hazards.md section 1: a block with any legal parameters meets the invariant right after reset, all its
registers read 0, and with no host access and no turn pending its state does not change. -/
def Obligations.ResetStateMeetsInvariant : Prop :=
  ∀ c : Params, c.Wf →
    (State.resetOf c).Inv ∧ (∀ i, regValue i (State.resetOf c) = 0) ∧ step (State.resetOf c) = .next (State.resetOf c) ∧
      State.reset.Inv

/-- The machine's invariant (10_state.md sections 1 to 5; `State.Inv` cites a rule for each part) is kept by every step:
of the host, of the engine with every command, and of the reset input. -/
def Obligations.EveryStepKeepsInvariant : Prop :=
  ∀ s t : State, s.Inv → step s = .next t → t.Inv

/-- 10_state.md section 6 and 60_exceptions.md section 4: STATUS and the phase change only by a CMD write in IDLE (to busy), by
the engine's complete step (to done or to an error), and by a reset (to 0). In particular nothing but completion or
reset ends a running command. -/
def Obligations.StatusChangesOnlyAtStartCompletionReset : Prop :=
  ∀ s t : State, step s = .next t → t.status ≠ s.status ∨ t.phase ≠ s.phase →
    (s.phase = .idle ∧ t.phase = .busy ∧ t.status = 0x001 ∧ (s.turns.head? = none ∨ s.turns.head? = some .host) ∧
      ∃ v q, s.queue = .wrReg 0x0 v :: q) ∨
    (s.phase = .busy ∧ t.phase = .idle ∧ (s.turns.head? = none ∨ s.turns.head? = some .engine) ∧
      (t.status = 0x002 ∨ ∃ c : ErrCode, t.status = 0x004 ||| (c.code <<< 8))) ∨
    (s.turns.head? = some .reset ∧ t.phase = .idle ∧ t.status = 0x000)

/-- 10_state.md section 5 (IN): a byte of IN changes only by a reset or by a host write of that byte, inside the window and
while IDLE. The engine never writes IN. -/
def Obligations.InChangesOnlyByHostWriteOrReset : Prop :=
  ∀ (s t : State) (a : Nat), s.inMem.wf = true → step s = .next t → t.inMem.read a ≠ s.inMem.read a →
    s.turns.head? = some .reset ∨
    (s.phase = .idle ∧ (s.turns.head? = none ∨ s.turns.head? = some .host) ∧ a < s.cfg.inCap ∧
      ∃ b q, s.queue = .wrIn a b :: q ∧ t.inMem.read a = some b)

/-- 10_state.md section 5 (OUT): OUT changes only in the engine's complete step or by a reset, so the host cannot write it. -/
def Obligations.OutChangesOnlyByCompletionOrReset : Prop :=
  ∀ s t : State, step s = .next t → t.outMem ≠ s.outMem →
    s.turns.head? = some .reset ∨
    (s.phase = .busy ∧ t.phase = .idle ∧ (s.turns.head? = none ∨ s.turns.head? = some .engine))

/-! ### Every command -/

/-- 60_exceptions.md section 2 and 10_state.md section 4: what a command leaves unchanged. When it completes, IN, the operand
registers, CMD, the latch, the parameters, and the host's side are as before. Every OUT byte below OUT_LEN has a value
and no other has. -/
def Obligations.CompletionFrame : Prop :=
  ∀ (i : Instr) (s t : State), exec i s = .next t →
    t.cfg = s.cfg ∧ t.cmdOp = s.cmdOp ∧ t.inLen = s.inLen ∧ t.argOffset = s.argOffset ∧ t.argValue = s.argValue ∧
    t.argLit = s.argLit ∧ t.latch = s.latch ∧ (∀ a, t.inMem.read a = s.inMem.read a) ∧ t.draws = s.draws ∧
    t.queue = s.queue ∧ t.turns = s.turns ∧ t.returned = s.returned ∧ t.phase = .idle ∧
    (s.cfg.Wf → ∀ a, (t.outMem.read a).isSome = decide (a < t.outLen.toNat))

/-- 10_state.md section 4 ("Exec is total"): a command completes, with DONE or an error, whenever the IN bytes it may read
have been written: IN[ARG_OFFSET, IN_LEN) for the two varint decoders, IN[0, IN_LEN) for ENCODE and DECODE, none for the
others or when IN_LEN > IN_CAP. -/
def Obligations.EveryCommandCompletesOnWrittenInput : Prop :=
  ∀ (i : Instr) (s : State), InputWritten i s →
    ∃ t, exec i s = .next t ∧ t.phase = .idle ∧
      (t.status = 0x002 ∨ ∃ c : ErrCode, t.status = 0x004 ||| (c.code <<< 8))

/-- 10_state.md section 5 and 60_exceptions.md section 8: a command never faults, and the only refusal is UNINIT_READ, at an IN
byte that the command may read and that has not been written since reset. -/
def Obligations.RefusalOnlyAtAnUnwrittenByte : Prop :=
  ∀ (i : Instr) (s : State), (∀ f, exec i s ≠ .fault f) ∧
    ∀ r, exec i s = .refused r → ∃ a, r = .uninitRead a ∧ MayRead i s a ∧ s.inMem.read a = none

/-- 30_encoding.md section 1 (the reads column) and 42_rle_encoder.md section 3: what a command shows the host depends only on
the parameters, on the operands that command reads, and on the IN bytes inside the range it reads. No register, no
earlier result and no byte outside that range matters. -/
def Obligations.ResultDependsOnlyOnOperandsRead : Prop :=
  ∀ (i : Instr) (s s' : State), s.cfg = s'.cfg → SameOperands i s s' → SameResults (exec i s) (exec i s')

/-- 60_exceptions.md section 1, with 10_state.md section 3: the STATUS word each error leaves. -/
def Obligations.ErrorStatusWords : Prop :=
  (0x004 ||| (ErrCode.trunc.code <<< 8) = (0x104 : Word)) ∧ (0x004 ||| (ErrCode.overflow.code <<< 8) = (0x204 : Word)) ∧
  (0x004 ||| (ErrCode.outFull.code <<< 8) = (0x304 : Word)) ∧ (0x004 ||| (ErrCode.offset.code <<< 8) = (0x404 : Word)) ∧
  (0x004 ||| (ErrCode.arg.code <<< 8) = (0x504 : Word)) ∧ (0x004 ||| (ErrCode.badCmd.code <<< 8) = (0x604 : Word))

/-! ### ENCODE_VALUE, DECODE_VALUE, ENCODE_SECTION, DECODE_SECTION -/

/-- 40_varint.md section 2: ENCODE_VALUE completes in every state, with the canonical varint of ARG_VALUE in OUT when it fits
in VAL_W bits, and with E_ARG(0) when it does not. -/
def Obligations.EncodeValueGivesTheCanonicalVarint : Prop :=
  ∀ s : State,
    (s.latch.argValue.toNat < 2 ^ s.cfg.valW →
      ∃ t bs, exec .encodeValue s = .next t ∧ DoneWith s t bs 0 false 0 ∧
        IsCanonicalVarint s.latch.argValue.toNat bs) ∧
    (2 ^ s.cfg.valW ≤ s.latch.argValue.toNat → ∃ t, exec .encodeValue s = .next t ∧ ErrorWith s t .arg 0)

/-- 40_varint.md section 3: DECODE_VALUE gives the value of the varint at ARG_OFFSET, canonical or not, when it fits in VAL_W
bits, with the offset past its last byte, whatever follows it. At the end of the input it gives (0, ARG_OFFSET). -/
def Obligations.DecodeValueGivesTheVarintsValue : Prop :=
  ∀ (s : State) (bs : List Byte), s.cfg.Wf → s.latch.inLen.toNat ≤ s.cfg.inCap →
    (s.latch.argOffset = s.latch.inLen →
      ∃ t, exec .decodeValue s = .next t ∧ DoneWith s t [] 0 false s.latch.argOffset.toNat) ∧
    (isVarint bs = true → varintValue bs < 2 ^ s.cfg.valW → Holds s.inMem s.latch.argOffset.toNat bs →
      s.latch.argOffset.toNat + bs.length ≤ s.latch.inLen.toNat →
      ∃ t, exec .decodeValue s = .next t ∧
        DoneWith s t [] (varintValue bs) false (s.latch.argOffset.toNat + bs.length))

/-- 41_section_header.md section 2: ENCODE_SECTION completes in every state of a chip with legal parameters, with the
canonical varint of 2 * length + literal in OUT when length is below 2^(VAL_W-1), and with E_ARG(0) when it is not. -/
def Obligations.EncodeSectionGivesTheHeader : Prop :=
  ∀ s : State,
    (s.latch.argValue.toNat < 2 ^ (s.cfg.valW - 1) →
      ∃ t bs, exec .encodeSection s = .next t ∧ DoneWith s t bs 0 false 0 ∧
        IsCanonicalVarint (2 * s.latch.argValue.toNat + (if s.latch.lit then 1 else 0)) bs) ∧
    (2 ^ (s.cfg.valW - 1) ≤ s.latch.argValue.toNat → ∃ t, exec .encodeSection s = .next t ∧ ErrorWith s t .arg 0)

/-- 41_section_header.md section 3: DECODE_SECTION splits the value of the varint at ARG_OFFSET into length and literal. At the
end of the input it gives length 0, literal 0. -/
def Obligations.DecodeSectionSplitsTheHeader : Prop :=
  ∀ (s : State) (bs : List Byte), s.cfg.Wf → s.latch.inLen.toNat ≤ s.cfg.inCap →
    (s.latch.argOffset = s.latch.inLen →
      ∃ t, exec .decodeSection s = .next t ∧ DoneWith s t [] 0 false s.latch.argOffset.toNat) ∧
    (isVarint bs = true → varintValue bs < 2 ^ s.cfg.valW → Holds s.inMem s.latch.argOffset.toNat bs →
      s.latch.argOffset.toNat + bs.length ≤ s.latch.inLen.toNat →
      ∃ t, exec .decodeSection s = .next t ∧
        DoneWith s t [] (varintValue bs / 2) (decide (varintValue bs % 2 = 1))
          (s.latch.argOffset.toNat + bs.length))

/-- 40_varint.md section 3, 41_section_header.md section 3 and 60_exceptions.md section 3: when DECODE_VALUE and DECODE_SECTION
end in an error, which one, and with which ERR_POS. -/
def Obligations.VarintDecodeErrors : Prop :=
  ∀ (i : Instr) (s : State) (bs : List Byte), i = .decodeValue ∨ i = .decodeSection → s.cfg.Wf →
    (s.cfg.inCap < s.latch.inLen.toNat → ∃ t, exec i s = .next t ∧ ErrorWith s t .arg 0) ∧
    (s.latch.inLen.toNat ≤ s.cfg.inCap →
      (s.latch.inLen.toNat < s.latch.argOffset.toNat →
        ∃ t, exec i s = .next t ∧ ErrorWith s t .offset s.latch.argOffset.toNat) ∧
      (isVarint bs = true → 2 ^ s.cfg.valW ≤ varintValue bs → Holds s.inMem s.latch.argOffset.toNat bs →
        s.latch.argOffset.toNat + bs.length ≤ s.latch.inLen.toNat →
        ∃ t, exec i s = .next t ∧ ErrorWith s t .overflow s.latch.argOffset.toNat) ∧
      (bs ≠ [] → allCont bs = true → Holds s.inMem s.latch.argOffset.toNat bs →
        s.latch.argOffset.toNat + bs.length = s.latch.inLen.toNat →
        ∃ t, exec i s = .next t ∧
          ErrorWith s t (if varintValue bs < 2 ^ s.cfg.valW then .trunc else .overflow) s.latch.argOffset.toNat))

/-! ### ENCODE, DECODE and the reserved codes -/

/-- 30_encoding.md section 4 and 42_rle_encoder.md section 1: every buffer is the expansion of exactly one canonical list of
sections. With `EncodeGivesTheCanonicalStream` this makes the canonical properties determine ENCODE's output. -/
def Obligations.EveryBufferHasOneCanonicalStream : Prop :=
  ∀ bs : List Byte, ∃ xs : List Section, canonicalStream xs = true ∧ expandAll xs = bs ∧
    ∀ ys : List Section, canonicalStream ys = true → expandAll ys = bs → ys = xs

/-- 42_rle_encoder.md section 2: ENCODE of IN[0, IN_LEN) completes with the canonical stream of the input when that fits in
OUT, with E_OUT_FULL at the first input byte of the first section that does not fit when it does not, and with E_ARG(0)
when IN_LEN > IN_CAP. -/
def Obligations.EncodeGivesTheCanonicalStream : Prop :=
  ∀ s : State,
    (∀ xs : List Section, canonicalStream xs = true → (expandAll xs).length = s.latch.inLen.toNat →
      s.latch.inLen.toNat ≤ s.cfg.inCap → Holds s.inMem 0 (expandAll xs) →
      ((streamBytes xs).length ≤ s.cfg.outCap →
        ∃ t, exec .encodeStream s = .next t ∧ DoneWith s t (streamBytes xs) 0 false 0) ∧
      ∀ (pre : List Section) (x : Section) (post : List Section), xs = pre ++ x :: post →
        (streamBytes pre).length ≤ s.cfg.outCap → s.cfg.outCap < (streamBytes (pre ++ [x])).length →
        ∃ t, exec .encodeStream s = .next t ∧ ErrorWith s t .outFull (expandAll pre).length) ∧
    (s.cfg.inCap < s.latch.inLen.toNat → ∃ t, exec .encodeStream s = .next t ∧ ErrorWith s t .arg 0)

/-- 43_rle_decoder.md sections 1 and 2: DECODE of a stream of complete sections, canonical or not, completes with their
expansion when it fits in OUT, and with E_ARG(0) when IN_LEN > IN_CAP. -/
def Obligations.DecodeGivesTheExpansion : Prop :=
  ∀ s : State, s.cfg.Wf →
    (∀ xs : List WireSection, xs.all (WireSection.valid s.cfg.valW) = true →
      (wireBytes xs).length = s.latch.inLen.toNat → s.latch.inLen.toNat ≤ s.cfg.inCap →
      Holds s.inMem 0 (wireBytes xs) → (wireExpand xs).length ≤ s.cfg.outCap →
      ∃ t, exec .decodeStream s = .next t ∧ DoneWith s t (wireExpand xs) 0 false 0) ∧
    (s.cfg.inCap < s.latch.inLen.toNat → ∃ t, exec .decodeStream s = .next t ∧ ErrorWith s t .arg 0)

/-- 43_rle_decoder.md sections 1 and 2 and 60_exceptions.md section 3: the first failing section decides DECODE's error, which
records where that section's header starts. Within the section the header comes before the payload and the payload
before the capacity of OUT. `xs` are the complete sections before it and `h`, `p` its header and what follows it. -/
def Obligations.DecodeErrorsAtTheFirstFailingSection : Prop :=
  ∀ (s : State) (xs : List WireSection) (h p : List Byte), s.cfg.Wf →
    xs.all (WireSection.valid s.cfg.valW) = true → (wireExpand xs).length ≤ s.cfg.outCap →
    (wireBytes xs ++ h ++ p).length = s.latch.inLen.toNat → s.latch.inLen.toNat ≤ s.cfg.inCap →
    Holds s.inMem 0 (wireBytes xs ++ h ++ p) → h ≠ [] →
    (allCont h = true → p = [] → ∃ t, exec .decodeStream s = .next t ∧
      ErrorWith s t (if varintValue h < 2 ^ s.cfg.valW then .trunc else .overflow) (wireBytes xs).length) ∧
    (isVarint h = true → 2 ^ s.cfg.valW ≤ varintValue h → ∃ t, exec .decodeStream s = .next t ∧
      ErrorWith s t .overflow (wireBytes xs).length) ∧
    (isVarint h = true → varintValue h < 2 ^ s.cfg.valW →
      (p.length < (if varintValue h % 2 = 1 then varintValue h / 2 else 1) → ∃ t, exec .decodeStream s = .next t ∧
        ErrorWith s t .trunc (wireBytes xs).length) ∧
      ((if varintValue h % 2 = 1 then varintValue h / 2 else 1) ≤ p.length →
        s.cfg.outCap < (wireExpand xs).length + varintValue h / 2 → ∃ t, exec .decodeStream s = .next t ∧
          ErrorWith s t .outFull (wireBytes xs).length))

/-- R118: a reserved code completes with E_BADCMD(0) in every state, so with no operand and no IN byte read, and a CMD write
of one while IDLE starts such a command. -/
def Obligations.ReservedCodesCompleteWithBadCommand : Prop :=
  (∀ (i : Instr) (s : State), i = .reserved0 ∨ i = .reserved7 ∨ (∃ op, i = .reserved8toF op) →
    ∃ t, exec i s = .next t ∧ ErrorWith s t .badCmd 0) ∧
  ∀ (s : State) (v : Word), s.phase = .idle → v &&& 0xF = 0 ∨ 7 ≤ (v &&& 0xF).toNat →
    (hostOp (.wrReg 0x0 v) s).phase = .busy ∧
      ∃ t, engineStep (hostOp (.wrReg 0x0 v) s) = .next t ∧ ErrorWith (hostOp (.wrReg 0x0 v) s) t .badCmd 0

/-! ### Properties of the varint and section functions -/

/-- R67: VarintEncode(n) is the unique minimal-length sequence: it is the one canonical varint of `n` (empty for 0, else the
one varint of value `n` whose first byte is not 0x80), its length is the least k with n < 128^k, and no varint of value
`n` is shorter. -/
def Obligations.VarintEncodingIsTheCanonicalForm : Prop :=
  ∀ n : Nat,
    (∀ bs : List Byte, IsCanonicalVarint n bs ↔ bs = varintEncode n) ∧
    (varintEncode n).length = varintLen n ∧ n < 128 ^ varintLen n ∧ (∀ k, n < 128 ^ k → varintLen n ≤ k) ∧
    ∀ bs : List Byte, isVarint bs = true → varintValue bs = n → varintLen n ≤ bs.length

/-- R86: decoding the encoding of a representable value gives the value and the length of its encoding. -/
def Obligations.VarintRoundTrip : Prop :=
  ∀ w n : Nat, 8 ≤ w → w ≤ 64 → n < 2 ^ w →
    varintDecode w (fun a => (varintEncode n)[a]?) (varintEncode n).length 0 = .ok (n, (varintEncode n).length)

/-- R87: no byte sequence that decodes to `n` is shorter than the encoding of `n`, whose first byte is not 0x80, and the
three instances R87 names. -/
def Obligations.VarintIsMinimal : Prop :=
  (∀ (w n p : Nat) (bs : List Byte), 8 ≤ w → w ≤ 64 →
    varintDecode w (fun a => bs[a]?) bs.length 0 = .ok (n, p) → (varintEncode n).length ≤ bs.length) ∧
  (∀ n, (varintEncode n).head? ≠ some 0x80) ∧
  varintEncode 0 = [] ∧ varintEncode 127 = [0x7F] ∧ varintEncode 128 = [0x81, 0x00]

/-- R88: any varint, canonical or not, followed by any bytes decodes exactly as the varint alone does, to its value and its
length when the value fits. So does the encoding of `n >= 1`, and the empty encoding of 0 followed by a byte does not. -/
def Obligations.VarintPrefixDecodes : Prop :=
  ∀ (w : Nat) (t : List Byte), 8 ≤ w → w ≤ 64 →
    (∀ bs : List Byte, isVarint bs = true →
      varintDecode w (fun a => (bs ++ t)[a]?) (bs ++ t).length 0 = varintDecode w (fun a => bs[a]?) bs.length 0 ∧
      (varintValue bs < 2 ^ w →
        varintDecode w (fun a => (bs ++ t)[a]?) (bs ++ t).length 0 = .ok (varintValue bs, bs.length))) ∧
    (∀ n : Nat, 1 ≤ n → n < 2 ^ w →
      varintDecode w (fun a => (varintEncode n ++ t)[a]?) (varintEncode n ++ t).length 0 =
        .ok (n, (varintEncode n).length)) ∧
    (t ≠ [] → varintDecode w (fun a => (varintEncode 0 ++ t)[a]?) (varintEncode 0 ++ t).length 0 ≠
      .ok (0, (varintEncode 0).length))

/-- R94: decoding the encoding of a section header gives it back, also when bytes follow a header value of 1 or more. -/
def Obligations.SectionHeaderRoundTrip : Prop :=
  ∀ (w L : Nat) (lit : Bool) (t : List Byte), 8 ≤ w → w ≤ 64 → L < 2 ^ (w - 1) →
    t = [] ∨ 1 ≤ 2 * L + (if lit then 1 else 0) →
    sectionDecode w (fun a => (sectionEncode L lit ++ t)[a]?) (sectionEncode L lit ++ t).length 0 =
      .ok (L, lit, (sectionEncode L lit).length)

/-! ### Properties of the encoder and the decoder -/

/-- R102: the output of RleEncode is never longer than ENC_BOUND(n), and a chip with OUT_CAP >= ENC_BOUND(IN_CAP) never
ends ENCODE with E_OUT_FULL. -/
def Obligations.EncodedSizeBound : Prop :=
  encBound 0 = 0 ∧ (∀ n, 1 ≤ n → encBound n = n + varintLen (2 * n + 1) * ((2 * n + 1) / 3)) ∧
  (∀ (cap : Nat) (bs out : List Byte), rleEncode cap (fun a => bs[a]?) bs.length = .ok out →
    out.length ≤ encBound bs.length) ∧
  ∀ s t : State, encBound s.cfg.inCap ≤ s.cfg.outCap → exec .encodeStream s = .next t →
    t.status ≠ 0x004 ||| (ErrCode.outFull.code <<< 8)

/-- R112: RleDecode undoes RleEncode on every buffer whose section headers fit in VAL_W bits, when neither is bounded by
the output memory: under every large enough capacity the encoding is the same, and it decodes to the buffer. The
headers of every buffer of at most IN_CAP bytes fit. -/
def Obligations.RleRoundTrip : Prop :=
  (∀ (w : Nat) (bs : List Byte), 8 ≤ w → w ≤ 64 →
    (∀ xs : List Section, canonicalStream xs = true → expandAll xs = bs → ∀ x ∈ xs, x.headerValue < 2 ^ w) →
    ∃ e : List Byte,
      (∀ cap, e.length ≤ cap → rleEncode cap (fun a => bs[a]?) bs.length = .ok e) ∧
      ∀ cap, bs.length ≤ cap → rleDecode w cap (fun a => e[a]?) e.length = .ok bs) ∧
  ∀ (c : Params) (xs : List Section), c.Wf → canonicalStream xs = true → (expandAll xs).length ≤ c.inCap →
    ∀ x ∈ xs, x.headerValue < 2 ^ c.valW

/-- R113: ENCODE of a buffer, then DECODE of what it left in OUT, gives the buffer back. `s` is any state that latched an
ENCODE of `bs` and whose encoding fits. `u` is any state that latched a DECODE of a copy of OUT[0, OUT_LEN). -/
def Obligations.EncodeThenDecodeGivesTheBuffer : Prop :=
  ∀ (s : State) (bs e : List Byte), s.cfg.Wf → s.latch.inLen.toNat = bs.length → Holds s.inMem 0 bs →
    bs.length ≤ s.cfg.inCap → bs.length ≤ s.cfg.outCap →
    rleEncode s.cfg.outCap (fun a => bs[a]?) bs.length = .ok e → e.length ≤ s.cfg.inCap →
    ∃ t, exec .encodeStream s = .next t ∧ t.status = 0x002 ∧ t.outLen.toNat = e.length ∧
      ∀ u : State, u.cfg = t.cfg → u.latch.inLen = t.outLen →
        (∀ a, a < t.outLen.toNat → u.inMem.read a = t.outMem.read a) →
        ∃ v, exec .decodeStream u = .next v ∧ DoneWith u v bs 0 false 0 ∧ v.outLen.toNat = bs.length

/-! ### Completion -/

/-- 70_reset_and_hazards.md section 4 and 20_memory.md section 4: a BUSY command survives any number of host turns with its
latched operands and IN unchanged, and when they are used up the next step is its complete step. That step completes
the command, with DONE or an error, when the IN bytes it may read were written. (That the engine then moves is the model's
form of the completion assumption, assumption log 3.) -/
def Obligations.BusyCommandCompletesAfterHostTurns : Prop :=
  ∀ s : State, s.phase = .busy → (∀ x ∈ s.turns, x = .host) →
    (∃ u : State, Sys2Proof.core.run s.turns.length s = .next u ∧ u.phase = .busy ∧ u.turns = [] ∧ u.latch = s.latch ∧
      u.inMem = s.inMem ∧ u.cfg = s.cfg ∧ u.status = s.status ∧
      Sys2Proof.core.run (s.turns.length + 1) s = exec (fetch u) u ∧ fetch u = fetch s) ∧
    (InputWritten (fetch s) s → ∃ t : State, Sys2Proof.core.run (s.turns.length + 1) s = .next t ∧ t.phase = .idle ∧
      (t.status = 0x002 ∨ ∃ c : ErrCode, t.status = 0x004 ||| (c.code <<< 8)))

/-! ### Host accesses in order -/

/-- 20_memory.md section 4: at the host's turn the step takes the access at the head of the queue, whatever it is, and has
that access's effect (`WAIT` stays at the head while the BUSY bit is 1). A host with no access to issue does nothing. So the
host's turns serve its accesses one at a time, in issue order, each whole before the next. (The queue and the turn taken
while IDLE when none is left are the model's choice, assumption logs 3, 4 and 14.) -/
def Obligations.HostTurnsServeAccessesInIssueOrder : Prop :=
  (∀ (s : State) (ts : List Turn), (s.turns = .host :: ts ∨ (s.turns = [] ∧ ts = [] ∧ s.phase = .idle)) →
    (s.queue = [] → step s = .next { s with turns := ts }) ∧
    ∀ (op : HostOp) (q : List HostOp), s.queue = op :: q →
      (op ≠ .wait ∨ s.status.getLsbD 0 = false → step s = .next (hostOp op { s with queue := q, turns := ts })) ∧
      (op = .wait → s.status.getLsbD 0 = true →
        step s = .next (hostOp op { s with queue := op :: q, turns := ts }))) ∧
  ∀ (s : State) (ops q : List HostOp) (ts : List Turn), s.queue = ops ++ q →
    s.turns = List.replicate ops.length .host ++ ts → .wait ∉ ops →
    ∃ u : State, Sys2Proof.core.run ops.length s = .next u ∧
      u = ops.foldl (fun x op => hostOp op x) { s with queue := q, turns := ts }
end

