-- ==== Sys2Proof/Laws/State.lean ====
section
/-! SUPPORT. One lemma per field per update of the state, so that no later proof unfolds a record update. -/

namespace Sys2Proof.Machine

@[simp] theorem startCommand_cfg (v : Word) (s : State) : (startCommand v s).cfg = s.cfg := rfl
@[simp] theorem startCommand_phase (v : Word) (s : State) : (startCommand v s).phase = .busy := rfl
@[simp] theorem startCommand_cmdOp (v : Word) (s : State) : (startCommand v s).cmdOp = opField v := rfl
@[simp] theorem startCommand_status (v : Word) (s : State) : (startCommand v s).status = statusBusy := rfl
@[simp] theorem startCommand_inLen (v : Word) (s : State) : (startCommand v s).inLen = s.inLen := rfl
@[simp] theorem startCommand_argOffset (v : Word) (s : State) : (startCommand v s).argOffset = s.argOffset := rfl
@[simp] theorem startCommand_argValue (v : Word) (s : State) : (startCommand v s).argValue = s.argValue := rfl
@[simp] theorem startCommand_argLit (v : Word) (s : State) : (startCommand v s).argLit = s.argLit := rfl
@[simp] theorem startCommand_resValue (v : Word) (s : State) : (startCommand v s).resValue = s.resValue := rfl
@[simp] theorem startCommand_resLit (v : Word) (s : State) : (startCommand v s).resLit = s.resLit := rfl
@[simp] theorem startCommand_resOffset (v : Word) (s : State) : (startCommand v s).resOffset = s.resOffset := rfl
@[simp] theorem startCommand_outLen (v : Word) (s : State) : (startCommand v s).outLen = s.outLen := rfl
@[simp] theorem startCommand_errPos (v : Word) (s : State) : (startCommand v s).errPos = s.errPos := rfl
@[simp] theorem startCommand_latch (v : Word) (s : State) : (startCommand v s).latch = ⟨opField v, s.inLen, s.argOffset, s.argValue, s.argLit⟩ := rfl
@[simp] theorem startCommand_inMem (v : Word) (s : State) : (startCommand v s).inMem = s.inMem := rfl
@[simp] theorem startCommand_outMem (v : Word) (s : State) : (startCommand v s).outMem = s.outMem := rfl
@[simp] theorem startCommand_draws (v : Word) (s : State) : (startCommand v s).draws = s.draws := rfl
@[simp] theorem startCommand_queue (v : Word) (s : State) : (startCommand v s).queue = s.queue := rfl
@[simp] theorem startCommand_turns (v : Word) (s : State) : (startCommand v s).turns = s.turns := rfl
@[simp] theorem startCommand_returned (v : Word) (s : State) : (startCommand v s).returned = s.returned := rfl

@[simp] theorem completeDone_cfg (d : Done) (s : State) : (completeDone d s).cfg = s.cfg := rfl
@[simp] theorem completeDone_phase (d : Done) (s : State) : (completeDone d s).phase = .idle := rfl
@[simp] theorem completeDone_cmdOp (d : Done) (s : State) : (completeDone d s).cmdOp = s.cmdOp := rfl
@[simp] theorem completeDone_status (d : Done) (s : State) : (completeDone d s).status = statusDone := rfl
@[simp] theorem completeDone_inLen (d : Done) (s : State) : (completeDone d s).inLen = s.inLen := rfl
@[simp] theorem completeDone_argOffset (d : Done) (s : State) : (completeDone d s).argOffset = s.argOffset := rfl
@[simp] theorem completeDone_argValue (d : Done) (s : State) : (completeDone d s).argValue = s.argValue := rfl
@[simp] theorem completeDone_argLit (d : Done) (s : State) : (completeDone d s).argLit = s.argLit := rfl
@[simp] theorem completeDone_resValue (d : Done) (s : State) : (completeDone d s).resValue = BitVec.ofNat 64 d.rv := rfl
@[simp] theorem completeDone_resLit (d : Done) (s : State) : (completeDone d s).resLit = d.rl := rfl
@[simp] theorem completeDone_resOffset (d : Done) (s : State) : (completeDone d s).resOffset = BitVec.ofNat 64 d.ro := rfl
@[simp] theorem completeDone_outLen (d : Done) (s : State) : (completeDone d s).outLen = BitVec.ofNat 64 d.out.length := rfl
@[simp] theorem completeDone_errPos (d : Done) (s : State) : (completeDone d s).errPos = 0 := rfl
@[simp] theorem completeDone_latch (d : Done) (s : State) : (completeDone d s).latch = s.latch := rfl
@[simp] theorem completeDone_inMem (d : Done) (s : State) : (completeDone d s).inMem = s.inMem := rfl
@[simp] theorem completeDone_outMem (d : Done) (s : State) : (completeDone d s).outMem = Memory.ofBytes d.out := rfl
@[simp] theorem completeDone_draws (d : Done) (s : State) : (completeDone d s).draws = s.draws := rfl
@[simp] theorem completeDone_queue (d : Done) (s : State) : (completeDone d s).queue = s.queue := rfl
@[simp] theorem completeDone_turns (d : Done) (s : State) : (completeDone d s).turns = s.turns := rfl
@[simp] theorem completeDone_returned (d : Done) (s : State) : (completeDone d s).returned = s.returned := rfl

@[simp] theorem completeError_cfg (c : ErrCode) (pos : Nat) (s : State) : (completeError c pos s).cfg = s.cfg := rfl
@[simp] theorem completeError_phase (c : ErrCode) (pos : Nat) (s : State) : (completeError c pos s).phase = .idle := rfl
@[simp] theorem completeError_cmdOp (c : ErrCode) (pos : Nat) (s : State) : (completeError c pos s).cmdOp = s.cmdOp := rfl
@[simp] theorem completeError_status (c : ErrCode) (pos : Nat) (s : State) : (completeError c pos s).status = statusError c := rfl
@[simp] theorem completeError_inLen (c : ErrCode) (pos : Nat) (s : State) : (completeError c pos s).inLen = s.inLen := rfl
@[simp] theorem completeError_argOffset (c : ErrCode) (pos : Nat) (s : State) : (completeError c pos s).argOffset = s.argOffset := rfl
@[simp] theorem completeError_argValue (c : ErrCode) (pos : Nat) (s : State) : (completeError c pos s).argValue = s.argValue := rfl
@[simp] theorem completeError_argLit (c : ErrCode) (pos : Nat) (s : State) : (completeError c pos s).argLit = s.argLit := rfl
@[simp] theorem completeError_resValue (c : ErrCode) (pos : Nat) (s : State) : (completeError c pos s).resValue = 0 := rfl
@[simp] theorem completeError_resLit (c : ErrCode) (pos : Nat) (s : State) : (completeError c pos s).resLit = false := rfl
@[simp] theorem completeError_resOffset (c : ErrCode) (pos : Nat) (s : State) : (completeError c pos s).resOffset = 0 := rfl
@[simp] theorem completeError_outLen (c : ErrCode) (pos : Nat) (s : State) : (completeError c pos s).outLen = 0 := rfl
@[simp] theorem completeError_errPos (c : ErrCode) (pos : Nat) (s : State) : (completeError c pos s).errPos = BitVec.ofNat 64 pos := rfl
@[simp] theorem completeError_latch (c : ErrCode) (pos : Nat) (s : State) : (completeError c pos s).latch = s.latch := rfl
@[simp] theorem completeError_inMem (c : ErrCode) (pos : Nat) (s : State) : (completeError c pos s).inMem = s.inMem := rfl
@[simp] theorem completeError_outMem (c : ErrCode) (pos : Nat) (s : State) : (completeError c pos s).outMem = [] := rfl
@[simp] theorem completeError_draws (c : ErrCode) (pos : Nat) (s : State) : (completeError c pos s).draws = s.draws := rfl
@[simp] theorem completeError_queue (c : ErrCode) (pos : Nat) (s : State) : (completeError c pos s).queue = s.queue := rfl
@[simp] theorem completeError_turns (c : ErrCode) (pos : Nat) (s : State) : (completeError c pos s).turns = s.turns := rfl
@[simp] theorem completeError_returned (c : ErrCode) (pos : Nat) (s : State) : (completeError c pos s).returned = s.returned := rfl

@[simp] theorem applyReset_cfg (s : State) : (applyReset s).cfg = s.cfg := rfl
@[simp] theorem applyReset_phase (s : State) : (applyReset s).phase = .idle := rfl
@[simp] theorem applyReset_cmdOp (s : State) : (applyReset s).cmdOp = 0 := rfl
@[simp] theorem applyReset_status (s : State) : (applyReset s).status = 0 := rfl
@[simp] theorem applyReset_inLen (s : State) : (applyReset s).inLen = 0 := rfl
@[simp] theorem applyReset_argOffset (s : State) : (applyReset s).argOffset = 0 := rfl
@[simp] theorem applyReset_argValue (s : State) : (applyReset s).argValue = 0 := rfl
@[simp] theorem applyReset_argLit (s : State) : (applyReset s).argLit = false := rfl
@[simp] theorem applyReset_resValue (s : State) : (applyReset s).resValue = 0 := rfl
@[simp] theorem applyReset_resLit (s : State) : (applyReset s).resLit = false := rfl
@[simp] theorem applyReset_resOffset (s : State) : (applyReset s).resOffset = 0 := rfl
@[simp] theorem applyReset_outLen (s : State) : (applyReset s).outLen = 0 := rfl
@[simp] theorem applyReset_errPos (s : State) : (applyReset s).errPos = 0 := rfl
@[simp] theorem applyReset_latch (s : State) : (applyReset s).latch = ⟨0, 0, 0, 0, false⟩ := rfl
@[simp] theorem applyReset_inMem (s : State) : (applyReset s).inMem = [] := rfl
@[simp] theorem applyReset_outMem (s : State) : (applyReset s).outMem = [] := rfl
@[simp] theorem applyReset_draws (s : State) : (applyReset s).draws = s.draws := rfl
@[simp] theorem applyReset_queue (s : State) : (applyReset s).queue = s.queue := rfl
@[simp] theorem applyReset_turns (s : State) : (applyReset s).turns = s.turns := rfl
@[simp] theorem applyReset_returned (s : State) : (applyReset s).returned = s.returned := rfl

@[simp] theorem returnValue_cfg (v : Word) (s : State) : (returnValue v s).cfg = s.cfg := rfl
@[simp] theorem returnValue_phase (v : Word) (s : State) : (returnValue v s).phase = s.phase := rfl
@[simp] theorem returnValue_cmdOp (v : Word) (s : State) : (returnValue v s).cmdOp = s.cmdOp := rfl
@[simp] theorem returnValue_status (v : Word) (s : State) : (returnValue v s).status = s.status := rfl
@[simp] theorem returnValue_inLen (v : Word) (s : State) : (returnValue v s).inLen = s.inLen := rfl
@[simp] theorem returnValue_argOffset (v : Word) (s : State) : (returnValue v s).argOffset = s.argOffset := rfl
@[simp] theorem returnValue_argValue (v : Word) (s : State) : (returnValue v s).argValue = s.argValue := rfl
@[simp] theorem returnValue_argLit (v : Word) (s : State) : (returnValue v s).argLit = s.argLit := rfl
@[simp] theorem returnValue_resValue (v : Word) (s : State) : (returnValue v s).resValue = s.resValue := rfl
@[simp] theorem returnValue_resLit (v : Word) (s : State) : (returnValue v s).resLit = s.resLit := rfl
@[simp] theorem returnValue_resOffset (v : Word) (s : State) : (returnValue v s).resOffset = s.resOffset := rfl
@[simp] theorem returnValue_outLen (v : Word) (s : State) : (returnValue v s).outLen = s.outLen := rfl
@[simp] theorem returnValue_errPos (v : Word) (s : State) : (returnValue v s).errPos = s.errPos := rfl
@[simp] theorem returnValue_latch (v : Word) (s : State) : (returnValue v s).latch = s.latch := rfl
@[simp] theorem returnValue_inMem (v : Word) (s : State) : (returnValue v s).inMem = s.inMem := rfl
@[simp] theorem returnValue_outMem (v : Word) (s : State) : (returnValue v s).outMem = s.outMem := rfl
@[simp] theorem returnValue_draws (v : Word) (s : State) : (returnValue v s).draws = s.draws := rfl
@[simp] theorem returnValue_queue (v : Word) (s : State) : (returnValue v s).queue = s.queue := rfl
@[simp] theorem returnValue_turns (v : Word) (s : State) : (returnValue v s).turns = s.turns := rfl
@[simp] theorem returnValue_returned (v : Word) (s : State) : (returnValue v s).returned = v :: s.returned := rfl

@[simp] theorem returnFreeByte_cfg (s : State) : (returnFreeByte s).cfg = s.cfg := rfl
@[simp] theorem returnFreeByte_phase (s : State) : (returnFreeByte s).phase = s.phase := rfl
@[simp] theorem returnFreeByte_cmdOp (s : State) : (returnFreeByte s).cmdOp = s.cmdOp := rfl
@[simp] theorem returnFreeByte_status (s : State) : (returnFreeByte s).status = s.status := rfl
@[simp] theorem returnFreeByte_inLen (s : State) : (returnFreeByte s).inLen = s.inLen := rfl
@[simp] theorem returnFreeByte_argOffset (s : State) : (returnFreeByte s).argOffset = s.argOffset := rfl
@[simp] theorem returnFreeByte_argValue (s : State) : (returnFreeByte s).argValue = s.argValue := rfl
@[simp] theorem returnFreeByte_argLit (s : State) : (returnFreeByte s).argLit = s.argLit := rfl
@[simp] theorem returnFreeByte_resValue (s : State) : (returnFreeByte s).resValue = s.resValue := rfl
@[simp] theorem returnFreeByte_resLit (s : State) : (returnFreeByte s).resLit = s.resLit := rfl
@[simp] theorem returnFreeByte_resOffset (s : State) : (returnFreeByte s).resOffset = s.resOffset := rfl
@[simp] theorem returnFreeByte_outLen (s : State) : (returnFreeByte s).outLen = s.outLen := rfl
@[simp] theorem returnFreeByte_errPos (s : State) : (returnFreeByte s).errPos = s.errPos := rfl
@[simp] theorem returnFreeByte_latch (s : State) : (returnFreeByte s).latch = s.latch := rfl
@[simp] theorem returnFreeByte_inMem (s : State) : (returnFreeByte s).inMem = s.inMem := rfl
@[simp] theorem returnFreeByte_outMem (s : State) : (returnFreeByte s).outMem = s.outMem := rfl
@[simp] theorem returnFreeByte_draws (s : State) : (returnFreeByte s).draws = s.draws + 1 := rfl
@[simp] theorem returnFreeByte_queue (s : State) : (returnFreeByte s).queue = s.queue := rfl
@[simp] theorem returnFreeByte_turns (s : State) : (returnFreeByte s).turns = s.turns := rfl
@[simp] theorem returnFreeByte_returned (s : State) : (returnFreeByte s).returned = (Config.freeByte s.draws).setWidth 64 :: s.returned := rfl

@[simp] theorem returnFreeWord_cfg (s : State) : (returnFreeWord s).cfg = s.cfg := rfl
@[simp] theorem returnFreeWord_phase (s : State) : (returnFreeWord s).phase = s.phase := rfl
@[simp] theorem returnFreeWord_cmdOp (s : State) : (returnFreeWord s).cmdOp = s.cmdOp := rfl
@[simp] theorem returnFreeWord_status (s : State) : (returnFreeWord s).status = s.status := rfl
@[simp] theorem returnFreeWord_inLen (s : State) : (returnFreeWord s).inLen = s.inLen := rfl
@[simp] theorem returnFreeWord_argOffset (s : State) : (returnFreeWord s).argOffset = s.argOffset := rfl
@[simp] theorem returnFreeWord_argValue (s : State) : (returnFreeWord s).argValue = s.argValue := rfl
@[simp] theorem returnFreeWord_argLit (s : State) : (returnFreeWord s).argLit = s.argLit := rfl
@[simp] theorem returnFreeWord_resValue (s : State) : (returnFreeWord s).resValue = s.resValue := rfl
@[simp] theorem returnFreeWord_resLit (s : State) : (returnFreeWord s).resLit = s.resLit := rfl
@[simp] theorem returnFreeWord_resOffset (s : State) : (returnFreeWord s).resOffset = s.resOffset := rfl
@[simp] theorem returnFreeWord_outLen (s : State) : (returnFreeWord s).outLen = s.outLen := rfl
@[simp] theorem returnFreeWord_errPos (s : State) : (returnFreeWord s).errPos = s.errPos := rfl
@[simp] theorem returnFreeWord_latch (s : State) : (returnFreeWord s).latch = s.latch := rfl
@[simp] theorem returnFreeWord_inMem (s : State) : (returnFreeWord s).inMem = s.inMem := rfl
@[simp] theorem returnFreeWord_outMem (s : State) : (returnFreeWord s).outMem = s.outMem := rfl
@[simp] theorem returnFreeWord_draws (s : State) : (returnFreeWord s).draws = s.draws + 1 := rfl
@[simp] theorem returnFreeWord_queue (s : State) : (returnFreeWord s).queue = s.queue := rfl
@[simp] theorem returnFreeWord_turns (s : State) : (returnFreeWord s).turns = s.turns := rfl
@[simp] theorem returnFreeWord_returned (s : State) : (returnFreeWord s).returned = Config.freeWord s.draws :: s.returned := rfl

end Sys2Proof.Machine
end

