-- ==== Sys2Proof/Laws/Memory.lean ====
section
/-! SUPPORT. What the memory operations do: read after write, the canonical form, and the bytes of `Memory.ofBytes`. -/

namespace Sys2Proof.Machine

@[simp] theorem Memory.read_nil (a : Nat) : Memory.read [] a = none := rfl

theorem Memory.wf_cons {k : Nat} {c : Byte} {m : Memory} :
    Memory.wf ((k, c) :: m) = true ↔ (∀ x ∈ m, k < x.1) ∧ Memory.wf m = true := by
  induction m generalizing k c with
  | nil => simp [Memory.wf]
  | cons y m ih =>
    obtain ⟨j, d⟩ := y
    simp only [Memory.wf, Bool.and_eq_true, decide_eq_true_eq, List.forall_mem_cons, and_congr_left_iff]
    intro hm
    constructor
    · intro h
      refine ⟨h, fun x hx => ?_⟩
      have := (ih.mp hm).1 x hx
      omega
    · exact fun h => h.1

/-- An address below every listed one has no value. -/
theorem Memory.read_eq_none {m : Memory} {a : Nat} (h : ∀ x ∈ m, x.1 ≠ a) : m.read a = none := by
  induction m with
  | nil => rfl
  | cons y m ih =>
    obtain ⟨k, c⟩ := y
    have hk : a ≠ k := fun e => h (k, c) (by simp) e.symm
    simp only [Memory.read, if_neg hk]
    exact ih fun x hx => h x (List.mem_cons_of_mem _ hx)

/-- Read after write: the byte written at that address, and every other address as before. -/
theorem Memory.read_write {m : Memory} (hm : m.wf = true) (a x : Nat) (b : Byte) :
    (m.write a b).read x = if x = a then some b else m.read x := by
  induction m with
  | nil => simp [Memory.write, Memory.read]
  | cons y m ih =>
    obtain ⟨k, c⟩ := y
    obtain ⟨hlt, hwf⟩ := Memory.wf_cons.mp hm
    simp only [Memory.write]
    split
    · simp [Memory.read]
    · split
      · rename_i h
        subst h
        simp only [Memory.read]
        split <;> simp_all
      · rename_i h1 h2
        simp only [Memory.read, ih hwf]
        split
        · rename_i h3
          simp [h3, Ne.symm h2]
        · rfl

/-- The cells a write leaves are the written one and old ones. -/
theorem Memory.mem_write {m : Memory} {a : Nat} {b : Byte} {x : Host.Cell} (h : x ∈ m.write a b) :
    x = (a, b) ∨ x ∈ m := by
  induction m with
  | nil => simpa [Memory.write] using h
  | cons y m ih =>
    obtain ⟨k, c⟩ := y
    simp only [Memory.write] at h
    split at h
    · simpa using h
    · split at h
      · rcases List.mem_cons.mp h with h | h
        · exact .inl h
        · exact .inr (List.mem_cons_of_mem _ h)
      · rcases List.mem_cons.mp h with h | h
        · exact .inr (h ▸ List.mem_cons_self)
        · exact (ih h).imp id (List.mem_cons_of_mem _)

/-- A write keeps the canonical form. -/
theorem Memory.wf_write {m : Memory} (hm : m.wf = true) (a : Nat) (b : Byte) : (m.write a b).wf = true := by
  induction m with
  | nil => rfl
  | cons y m ih =>
    obtain ⟨k, c⟩ := y
    obtain ⟨hlt, hwf⟩ := Memory.wf_cons.mp hm
    simp only [Memory.write]
    split
    · rename_i h
      refine Memory.wf_cons.mpr ⟨fun x hx => ?_, hm⟩
      rcases List.mem_cons.mp hx with rfl | hx
      · exact h
      · exact Nat.lt_trans h (hlt x hx)
    · split
      · rename_i h
        subst h
        exact Memory.wf_cons.mpr ⟨hlt, hwf⟩
      · refine Memory.wf_cons.mpr ⟨fun x hx => ?_, ih hwf⟩
        rcases Memory.mem_write hx with rfl | hx
        · show k < a
          omega
        · exact hlt x hx

theorem Memory.map_fst_ofBytesFrom (a : Nat) (bs : List Byte) :
    (Memory.ofBytesFrom a bs).map Prod.fst = List.range' a bs.length := by
  induction bs generalizing a with
  | nil => rfl
  | cons b bs ih => simp [Memory.ofBytesFrom, ih, List.range'_succ]

/-- The addresses that have a value after DONE are 0 to |out| - 1. -/
theorem Memory.map_fst_ofBytes (bs : List Byte) : (Memory.ofBytes bs).map Prod.fst = List.range bs.length := by
  rw [Memory.ofBytes, Memory.map_fst_ofBytesFrom, List.range_eq_range']

theorem Memory.read_ofBytesFrom (a x : Nat) (bs : List Byte) :
    (Memory.ofBytesFrom a bs).read x = if a ≤ x then bs[x - a]? else none := by
  induction bs generalizing a with
  | nil => simp [Memory.ofBytesFrom]
  | cons b bs ih =>
    simp only [Memory.ofBytesFrom, Memory.read, ih]
    rcases Nat.lt_trichotomy x a with h | rfl | h
    · rw [if_neg (by omega), if_neg (by omega), if_neg (by omega)]
    · simp
    · rw [if_neg (by omega), if_pos (by omega), if_pos (by omega)]
      obtain ⟨d, rfl⟩ : ∃ d, x = a + 1 + d := ⟨x - (a + 1), by omega⟩
      rw [Nat.add_sub_cancel_left, show a + 1 + d - a = d + 1 by omega, List.getElem?_cons_succ]

/-- OUT after DONE, byte by byte. -/
@[simp] theorem Memory.read_ofBytes (bs : List Byte) (x : Nat) : (Memory.ofBytes bs).read x = bs[x]? := by
  simp [Memory.ofBytes, Memory.read_ofBytesFrom]

theorem Memory.wf_ofBytesFrom (a : Nat) (bs : List Byte) : (Memory.ofBytesFrom a bs).wf = true := by
  induction bs generalizing a with
  | nil => rfl
  | cons b bs ih =>
    refine Memory.wf_cons.mpr ⟨fun x hx => ?_, ih (a + 1)⟩
    have : x.1 ∈ (Memory.ofBytesFrom (a + 1) bs).map Prod.fst := List.mem_map_of_mem hx
    rw [Memory.map_fst_ofBytesFrom] at this
    have := (List.mem_range'_1.mp this).1
    omega

/-- The result of a command is in canonical form. -/
@[simp] theorem Memory.wf_ofBytes (bs : List Byte) : (Memory.ofBytes bs).wf = true := Memory.wf_ofBytesFrom 0 bs

/-- The memories of the reset state are in canonical form. -/
theorem reset_memory_wf : State.reset.inMem.wf = true ∧ State.reset.outMem.wf = true := ⟨rfl, rfl⟩

end Sys2Proof.Machine
end

