-- ==== Sys2Proof/Laws/Ops.lean ====
section
/-! SUPPORT. What the shared operations can do, said once: completion, the host's accesses, and the step. -/

namespace Sys2Proof.Machine

/-! ### Completion -/

/-- A completion either writes a result or enters an error. -/
theorem complete_next {r : Except Stop Done} {s t : State} (h : complete r s = .next t) :
    (∃ d, r = .ok d ∧ t = completeDone d s) ∨ (∃ c pos, r = .error (.err c pos) ∧ t = completeError c pos s) := by
  unfold complete at h
  split at h
  · exact .inl ⟨_, rfl, (Host.Outcome.next.inj h).symm⟩
  · exact .inr ⟨_, _, rfl, (Host.Outcome.next.inj h).symm⟩
  · cases h

/-- A completion refuses only at a byte that has no value. -/
theorem complete_refused {r : Except Stop Done} {s : State} {x : Refusal} (h : complete r s = .refused x) :
    ∃ a, r = .error (.uninit a) ∧ x = .uninitRead a := by
  unfold complete at h
  split at h
  · cases h
  · cases h
  · exact ⟨_, rfl, (Host.Outcome.refused.inj h).symm⟩

theorem complete_ne_fault (r : Except Stop Done) (s : State) (f : Fault) : complete r s ≠ .fault f := nomatch f

@[simp] theorem complete_ok (d : Done) (s : State) : complete (.ok d) s = .next (completeDone d s) := rfl

@[simp] theorem complete_err (c : ErrCode) (pos : Nat) (s : State) :
    complete (.error (.err c pos)) s = .next (completeError c pos s) := rfl

@[simp] theorem complete_uninit (a : Nat) (s : State) : complete (.error (.uninit a)) s = .refused (.uninitRead a) := rfl

theorem doneWith_completeDone (d : Done) (s : State) : DoneWith s (completeDone d s) d.out d.rv d.rl d.ro :=
  ⟨rfl, fun a => by simp⟩

theorem errorWith_completeError (c : ErrCode) (pos : Nat) (s : State) : ErrorWith s (completeError c pos s) c pos :=
  ⟨rfl, fun _ => rfl⟩

/-- The Exec function of each command (10_state.md R35). -/
def commandResult (i : Instr) (c : Params) (l : Latch) (rd : Nat → Option Byte) : Except Stop Done :=
  match i with
  | .encodeValue => encodeValueExec c l
  | .decodeValue => decodeValueExec c l rd
  | .encodeSection => encodeSectionExec c l
  | .decodeSection => decodeSectionExec c l rd
  | .encodeStream => encodeStreamExec c l rd
  | .decodeStream => decodeStreamExec c l rd
  | .reserved0 => .error (.err .badCmd 0)
  | .reserved7 => .error (.err .badCmd 0)
  | .reserved8toF _ => .error (.err .badCmd 0)

/-- Every command is its Exec function and then the completion step. -/
theorem exec_eq_complete (i : Instr) (s : State) :
    exec i s = complete (commandResult i s.cfg s.latch s.inMem.read) s := by
  cases i <;> rfl

/-! ### Host accesses -/

/-- A read of one byte only returns one value to the host. -/
theorem returnMemByte_reads (m : Memory) (cap a : Nat) (s : State) :
    ∃ v d, returnMemByte m cap a s = { s with returned := v :: s.returned, draws := d } ∧
      s.draws ≤ d ∧ d ≤ s.draws + 1 := by
  unfold returnMemByte
  split
  · split
    · exact ⟨_, s.draws, rfl, by omega, by omega⟩
    · exact ⟨_, _, rfl, by omega, by omega⟩
  · exact ⟨_, s.draws, rfl, by omega, by omega⟩

/-- A register read only returns one value to the host. -/
theorem hostReadReg_reads (i : Nat) (s : State) :
    ∃ v d, hostReadReg i s = { s with returned := v :: s.returned, draws := d } ∧
      s.draws ≤ d ∧ d ≤ s.draws + 1 := by
  unfold hostReadReg
  split
  · exact ⟨_, s.draws, rfl, by omega, by omega⟩
  · split
    · exact ⟨_, _, rfl, by omega, by omega⟩
    · exact ⟨_, s.draws, rfl, by omega, by omega⟩

/-- Everything an access can do: return at most one value, or, while IDLE, write a register or a byte of IN. -/
theorem hostOp_cases (op : HostOp) (s : State) :
    (∃ vs d, hostOp op s = { s with returned := vs ++ s.returned, draws := d } ∧ vs.length ≤ 1 ∧ s.draws ≤ d ∧
      d ≤ s.draws + 1) ∨
    (s.phase = .idle ∧ ∃ i v, op = .wrReg i v ∧ hostOp op s = writeReg i v s) ∨
    (s.phase = .idle ∧ ∃ a b, op = .wrIn a b ∧ a < s.cfg.inCap ∧
      hostOp op s = { s with inMem := s.inMem.write a b }) := by
  have reads : ∀ {t : State}, (∃ v d, t = { s with returned := v :: s.returned, draws := d } ∧ s.draws ≤ d ∧
      d ≤ s.draws + 1) → ∃ vs d, t = { s with returned := vs ++ s.returned, draws := d } ∧ vs.length ≤ 1 ∧
      s.draws ≤ d ∧ d ≤ s.draws + 1 := by
    rintro t ⟨v, d, h⟩
    exact ⟨[v], d, h.1, by simp, h.2⟩
  have same : ∃ vs d, s = { s with returned := vs ++ s.returned, draws := d } ∧ vs.length ≤ 1 ∧
      s.draws ≤ d ∧ d ≤ s.draws + 1 := ⟨[], s.draws, rfl, by simp, by omega, by omega⟩
  cases op with
  | rdReg i => exact .inl (reads (hostReadReg_reads i s))
  | wrReg i v =>
    by_cases h : s.phase = .idle
    · exact .inr (.inl ⟨h, i, v, rfl, by simp [hostOp, hostWriteReg, h]⟩)
    · have hb : s.phase = .busy := by cases hp : s.phase <;> simp_all
      refine .inl ?_
      simpa [hostOp, hostWriteReg, hb] using same
  | rdIn a => exact .inl (reads (returnMemByte_reads _ _ a s))
  | wrIn a b =>
    cases h : s.phase with
    | idle =>
      by_cases hc : a < s.cfg.inCap
      · exact .inr (.inr ⟨rfl, a, b, rfl, hc, by simp [hostOp, hostWriteIn, h, hc]⟩)
      · refine .inl ?_
        simpa [hostOp, hostWriteIn, h, hc] using same
    | busy =>
      refine .inl ?_
      simpa [hostOp, hostWriteIn, h] using same
  | rdOut a =>
    refine .inl (reads ?_)
    show ∃ v d, hostReadOut a s = _ ∧ _
    unfold hostReadOut
    split <;> exact returnMemByte_reads _ _ a s
  | wrOut a b => exact .inl same
  | wait => exact .inl (reads (hostReadReg_reads 1 s))

/-- An access neither reads nor changes what is still to come: the host's queue and the turns. -/
theorem hostOp_withSchedule (op : HostOp) (s : State) (q : List HostOp) (ts : List Turn) :
    hostOp op { s with queue := q, turns := ts } = { hostOp op s with queue := q, turns := ts } := by
  cases op <;>
    simp only [hostOp, hostReadReg, hostWriteReg, hostReadIn, hostWriteIn, hostReadOut, returnMemByte] <;>
    (repeat' split) <;> first | rfl | (unfold writeReg; split <;> rfl)

/-- A register write that takes effect starts a command or changes one operand register, or does nothing. -/
theorem writeReg_cases (i : Nat) (v : Word) (s : State) :
    (i = 0 ∧ writeReg i v s = startCommand v s) ∨
    ∃ a b c d, writeReg i v s = { s with inLen := a, argOffset := b, argValue := c, argLit := d } := by
  unfold writeReg
  split
  · exact .inl ⟨rfl, rfl⟩
  all_goals exact .inr ⟨_, _, _, _, rfl⟩

/-- The host's step is its next access, or nothing. -/
theorem hostStep_cases (s : State) :
    (s.queue = [] ∧ hostStep s = s) ∨
    ∃ op rest q, s.queue = op :: rest ∧ hostStep s = hostOp op { s with queue := q } := by
  unfold hostStep
  split
  · exact .inl ⟨‹_›, rfl⟩
  · exact .inr ⟨_, _, _, ‹_›, rfl⟩

/-! ### The step -/

theorem State.phase_cases (s : State) : s.phase = .idle ∨ s.phase = .busy := by
  cases s.phase
  · exact .inl rfl
  · exact .inr rfl

/-- Everything a step can do: a host step while IDLE or at a host turn, a passed engine turn, a command's completion while
BUSY, or a reset. -/
theorem step_cases {s : State} {x : Host.Outcome State Fault Refusal} (h : step s = x) :
    (∃ ts, (s.turns = .host :: ts ∨ (s.turns = [] ∧ ts = [] ∧ s.phase = .idle)) ∧
      x = .next (hostStep { s with turns := ts })) ∨
    (∃ ts, s.phase = .idle ∧ s.turns = .engine :: ts ∧ x = .next { s with turns := ts }) ∨
    (∃ ts, s.phase = .busy ∧ (s.turns = .engine :: ts ∨ (s.turns = [] ∧ ts = [])) ∧
      x = exec (fetch s) { s with turns := ts }) ∨
    (∃ ts, s.turns = .reset :: ts ∧ x = .next (applyReset { s with turns := ts })) := by
  subst h
  rcases ht : s.turns with _ | ⟨t, ts⟩
  · have hn : nextTurn s = (defaultTurn s.phase, s) := by simp [nextTurn, ht]
    have eta : { s with turns := [] } = s := by
      cases s
      simp_all
    rcases s.phase_cases with hp | hp
    · exact .inl ⟨[], .inr ⟨rfl, rfl, hp⟩, by rw [eta]; simp [step, hn, hp, defaultTurn, takeTurn]⟩
    · refine .inr (.inr (.inl ⟨[], hp, .inr ⟨rfl, rfl⟩, ?_⟩))
      rw [eta]
      simp [step, hn, hp, defaultTurn, takeTurn, engineStep]
  · have hs : step s = takeTurn t { s with turns := ts } := by simp [step, nextTurn, ht]
    cases t with
    | host => exact .inl ⟨ts, .inl rfl, hs⟩
    | engine =>
      cases hp : s.phase with
      | idle => exact .inr (.inl ⟨ts, rfl, rfl, by simp [hs, takeTurn, engineStep, hp]⟩)
      | busy => exact .inr (.inr (.inl ⟨ts, rfl, .inl rfl, by simp [hs, takeTurn, engineStep, hp, fetch]⟩))
    | reset => exact .inr (.inr (.inr ⟨ts, rfl, hs⟩))

end Sys2Proof.Machine
end

