-- ==== Sys2Proof/Laws/Codec.lean ====
section
/-! SUPPORT. Small facts of the codec's shared functions: reads, `emit`, varint bytes and the varint loop. -/

namespace Sys2Proof.Machine

@[simp] theorem readByte_some {rd : Nat → Option Byte} {a : Nat} {b : Byte} (h : rd a = some b) :
    readByte rd a = .ok b := by
  simp [readByte, h]

/-- A read stops only at the address it reads, and only where there is no value. -/
theorem readByte_error {rd : Nat → Option Byte} {a : Nat} {e : Stop} (h : readByte rd a = .error e) :
    rd a = none ∧ e = .uninit a := by
  unfold readByte at h
  split at h
  · cases h
  · exact ⟨‹_›, (Except.error.inj h).symm⟩

/-- A slice whose bytes all have values is those bytes. -/
theorem readSlice_ok {rd : Nat → Option Byte} {a : Nat} {bs : List Byte}
    (h : ∀ k, k < bs.length → rd (a + k) = bs[k]?) : readSlice rd a bs.length = .ok bs := by
  induction bs generalizing a with
  | nil => rfl
  | cons b bs ih =>
    have h0 : rd a = some b := by simpa using h 0 (by simp)
    have hs : readSlice rd (a + 1) bs.length = .ok bs := ih fun k hk => by
      have := h (k + 1) (by simpa using hk)
      rw [List.getElem?_cons_succ] at this
      rw [← this, show a + 1 + k = a + (k + 1) by omega]
    simp [readSlice, readByte_some h0, hs]

/-- A slice stops only at a byte inside it that has no value. -/
theorem readSlice_error {rd : Nat → Option Byte} {a k : Nat} {e : Stop} (h : readSlice rd a k = .error e) :
    ∃ x, a ≤ x ∧ x < a + k ∧ rd x = none ∧ e = .uninit x := by
  induction k generalizing a e with
  | zero => cases h
  | succ k ih =>
    unfold readSlice at h
    split at h
    · rename_i e' he
      obtain ⟨h1, h2⟩ := readByte_error he
      exact ⟨a, by omega, by omega, h1, by rw [← Except.error.inj h, h2]⟩
    · split at h
      · rename_i e' he
        obtain ⟨x, h1, h2, h3, h4⟩ := ih he
        exact ⟨x, by omega, by omega, h3, by rw [← Except.error.inj h, h4]⟩
      · cases h

/-- `emit` appends when there is room. -/
theorem emit_ok {cap : Nat} {out s : List Byte} {pos : Nat} (h : out.length + s.length ≤ cap) :
    emit cap out s pos = .ok (out ++ s) := by
  simp [emit, Nat.not_lt.mpr h]

/-- `emit` is E_OUT_FULL when there is none. -/
theorem emit_full {cap : Nat} {out s : List Byte} {pos : Nat} (h : cap < out.length + s.length) :
    emit cap out s pos = .error (.err .outFull pos) := by
  simp [emit, h]

/-- Testing the room on the count is testing it on the bytes. -/
theorem emitRepeat_eq_emit (cap : Nat) (out : List Byte) (b : Byte) (n pos : Nat) :
    emitRepeat cap out b n pos = emit cap out (List.replicate n b) pos := by
  simp [emitRepeat, emit]

theorem groupBits_eq (b : Byte) : groupBits b = b.toNat % 128 := Nat.and_two_pow_sub_one_eq_mod b.toNat 7

theorem groupBits_lt (b : Byte) : groupBits b < 128 := by
  rw [groupBits_eq]
  omega

/-- OR and add give the same accumulator (40_varint.md R82). -/
theorem shift_or_group (acc : Nat) (b : Byte) : acc <<< 7 ||| groupBits b = acc * 128 + groupBits b := by
  rw [← Nat.shiftLeft_add_eq_or_of_lt (groupBits_lt b), Nat.shiftLeft_eq]

/-- The group of the byte `VarintEncode` gives for group `i`. -/
theorem groupBits_groupByte (n i : Nat) : groupBits (groupByte n i) = n / 128 ^ i % 128 := by
  have h : (n >>> (7 * i)) &&& 0x7F = n / 128 ^ i % 128 := by
    rw [show (0x7F : Nat) = 2 ^ 7 - 1 by rfl, Nat.and_two_pow_sub_one_eq_mod, Nat.shiftRight_eq_div_pow, pow_mul]
    rfl
  have hlt : n / 128 ^ i % 128 < 128 := Nat.mod_lt _ (by decide)
  rw [groupBits_eq, groupByte, h]
  split
  · simp
  · have : (0x80 : Nat) ||| n / 128 ^ i % 128 = 128 + n / 128 ^ i % 128 := by
      have := Nat.two_pow_add_eq_or_of_lt (i := 7) hlt 1
      simpa using this.symm
    rw [this]
    simp

/-- The continuation bit of the byte `VarintEncode` gives for group `i`: set but for the last (40_varint.md R80). -/
theorem contBit_groupByte (n i : Nat) : contBit (groupByte n i) = decide (i ≠ 0) := by
  have h : (n >>> (7 * i)) &&& 0x7F < 2 ^ 7 := Nat.lt_of_le_of_lt Nat.and_le_right (by decide)
  have hb : ((n >>> (7 * i)) &&& 0x7F).testBit 7 = false := Nat.testBit_lt_two_pow h
  by_cases hi : i = 0
  · subst hi
    simp [contBit, groupByte]
  · simp [contBit, groupByte, hi]

@[simp] theorem varintBytes_length (n k : Nat) : (varintBytes n k).length = k := by
  induction k with
  | zero => rfl
  | succ k ih => simp [varintBytes, ih]

@[simp] theorem varintEncode_zero : varintEncode 0 = [] := rfl

/-- One pass of the varint loop over a byte that has a value (40_varint.md R82). -/
theorem varintLoop_succ {w off f p acc : Nat} {rd : Nat → Option Byte} {b : Byte} (h : rd p = some b) :
    varintLoop w rd off (f + 1) p acc =
      if 2 ^ (w - 7) ≤ acc then .error (.err .overflow off)
      else if contBit b then varintLoop w rd off f (p + 1) (acc * 128 + groupBits b)
      else .ok (acc * 128 + groupBits b, p + 1) := by
  simp [varintLoop, readByte_some h, shift_or_group]

/-- The overflow test before the shift is the test that the new value needs more than VAL_W bits (40_varint.md R82). -/
theorem overflow_test {w acc : Nat} (hw : 7 ≤ w) (b : Byte) :
    2 ^ (w - 7) ≤ acc ↔ 2 ^ w ≤ acc * 128 + groupBits b := by
  have hp : 2 ^ w = 2 ^ (w - 7) * 128 := by rw [show (128 : Nat) = 2 ^ 7 by rfl, ← pow_add, Nat.sub_add_cancel hw]
  have := groupBits_lt b
  omega

/-- The header value of a section is at most twice its expansion and one. -/
theorem Section.headerValue_le {x : Section} {xs : List Section} (h : x ∈ xs) :
    x.headerValue ≤ 2 * (expandAll xs).length + 1 := by
  have : x.expand.length ≤ (expandAll xs).length := by
    rw [expandAll, List.length_flatMap]
    exact List.single_le_sum (by simp) _ (List.mem_map_of_mem h)
  cases x <;> simp [Section.headerValue, Section.expand] at * <;> omega

end Sys2Proof.Machine
end

