-- ==== Sys2Proof/Laws/PerInstr.lean ====
section
/-! SUPPORT. A law of every command, stated per constructor. -/

namespace Sys2Proof.Laws.ReservedBits

/-- The encoding of a command has its reserved bits [63:4] at 0, and bits [3:0] are its code (30_encoding.md R60). -/
def Statement (i : Instr) : Prop := encode i >>> 4 = 0 ∧ opField (encode i) = encodeOp i

theorem encodeValue : Statement .encodeValue := ⟨rfl, rfl⟩
theorem decodeValue : Statement .decodeValue := ⟨rfl, rfl⟩
theorem encodeSection : Statement .encodeSection := ⟨rfl, rfl⟩
theorem decodeSection : Statement .decodeSection := ⟨rfl, rfl⟩
theorem encodeStream : Statement .encodeStream := ⟨rfl, rfl⟩
theorem decodeStream : Statement .decodeStream := ⟨rfl, rfl⟩
theorem reserved0 : Statement .reserved0 := ⟨rfl, rfl⟩
theorem reserved7 : Statement .reserved7 := ⟨rfl, rfl⟩
theorem reserved8toF (op : BitVec 4) : Statement (.reserved8toF op) := by
  revert op
  simp only [Statement, encode, encodeOp, opField]
  decide

end Sys2Proof.Laws.ReservedBits
end

