-- ==== Sys2Proof/Tests/Slice0.lean ====
section
/-! SUPPORT. Tests and witnesses. Expected results are those of spec/95_test_vectors.md (each test names its vector) or are
worked by hand from the rule named. A witness shows that the hypotheses of a statement, or of one of its clauses, can be
met together. -/

namespace Sys2Proof.Tests

open Sys2Proof.Machine

/-! ### Well-formedness and decoding -/

/-- The one check of `Instr.wellFormed` refuses a code outside the row 0x8 to 0xF. -/
theorem test_wellFormed_refuses_low_code :
    (Instr.reserved8toF 0x7).wellFormed = false ∧ (Instr.reserved8toF 0x8).wellFormed = true := by decide

/-- The words of spec/opcode_table.json, bit by bit, with the reserved bits 0. -/
theorem test_decode_encodeValue :
    decode 0b0000000000000000000000000000000000000000000000000000000000000001 = .encodeValue := by decide
theorem test_decode_decodeValue :
    decode 0b0000000000000000000000000000000000000000000000000000000000000010 = .decodeValue := by decide
theorem test_decode_encodeSection :
    decode 0b0000000000000000000000000000000000000000000000000000000000000011 = .encodeSection := by decide
theorem test_decode_decodeSection :
    decode 0b0000000000000000000000000000000000000000000000000000000000000100 = .decodeSection := by decide
theorem test_decode_encodeStream :
    decode 0b0000000000000000000000000000000000000000000000000000000000000101 = .encodeStream := by decide
theorem test_decode_decodeStream :
    decode 0b0000000000000000000000000000000000000000000000000000000000000110 = .decodeStream := by decide
/-- R4v: bits [63:4] are ignored. -/
theorem test_decode_reserved0 :
    decode 0b0000000000000000000000000000000000000000000000000000000000010000 = .reserved0 := by decide
/-- R3v: 0xFFFFFFFFFFFFFFF7. -/
theorem test_decode_reserved7 :
    decode 0b1111111111111111111111111111111111111111111111111111111111110111 = .reserved7 := by decide
theorem test_decode_reserved8toF :
    decode 0b0000000000000000000000000000000000000000000000000000000000001101 = .reserved8toF 0b1101 := by decide

/-- A table row's word is its command, and 65 bits are no command word (30_encoding.md R60). -/
theorem test_decodeTableWord :
    decodeTableWord 64 0x6 = some .decodeStream ∧ decodeTableWord 8 0x6 = some .decodeStream ∧
      decodeTableWord 65 0x6 = none := by decide

/-! ### Commands -/

/-- A legal chip with VAL_W = 32 and small memories. -/
def chip32 : Params := { valW := 32, inCap := 8, outCap := 6, baseReg := 0, baseIn := 0, baseOut := 0 }

/-- A legal chip with VAL_W = 8, the least OUT_CAP, and IN_CAP = 8. -/
def chip8 : Params := { valW := 8, inCap := 8, outCap := 2, baseReg := 0, baseIn := 0, baseOut := 0 }

/-- A BUSY block with IN holding `bs` from address 0, and these latched operands, as a CMD write leaves them. -/
def busyWith (c : Params) (op : BitVec 4) (bs : List Byte) (inLen argOffset argValue : Word) (lit : Bool) : State :=
  { State.resetOf c with
    phase := .busy, status := 0x001, cmdOp := op, inLen := inLen, argOffset := argOffset, argValue := argValue,
    argLit := lit, latch := ⟨op, inLen, argOffset, argValue, lit⟩, inMem := Memory.ofBytes bs }

/-- The state an outcome goes on in. -/
def nextOf : Host.Outcome State Fault Refusal → Option State
  | .next t => some t
  | .fault _ => none
  | .refused _ => none

/-- STATUS, ERR_POS, and OUT[0, OUT_LEN) of a completed command. -/
def outcome (o : Host.Outcome State Fault Refusal) : Option (Word × Word × List Byte) :=
  (nextOf o).map fun t => (t.status, t.errPos, t.outMem.map Prod.snd)

/-- STATUS, RES_VALUE, RES_LITERAL and RES_OFFSET of a completed command. -/
def results (o : Host.Outcome State Fault Refusal) : Option (Word × Word × Bool × Word) :=
  (nextOf o).map fun t => (t.status, t.resValue, t.resLit, t.resOffset)

/-- V8, V18. -/
theorem test_encodeValue :
    outcome (exec .encodeValue (busyWith chip32 1 [] 0 0 128 false)) = some (0x002, 0, [0x81, 0x00]) ∧
    outcome (exec .encodeValue (busyWith chip32 1 [] 0 0 4294967295 false)) =
      some (0x002, 0, [0x8F, 0xFF, 0xFF, 0xFF, 0x7F]) := by decide
/-- V1, V19. -/
theorem test_encodeValue_ends :
    outcome (exec .encodeValue (busyWith chip32 1 [] 0 0 0 false)) = some (0x002, 0, []) ∧
    outcome (exec .encodeValue (busyWith chip32 1 [] 0 0 4294967296 false)) = some (0x504, 0, []) := by decide

/-- W15, W2. -/
theorem test_decodeValue :
    results (exec .decodeValue (busyWith chip32 2 [0x7F, 0x81, 0x00] 3 1 0 false)) = some (0x002, 128, false, 3) ∧
    results (exec .decodeValue (busyWith chip32 2 [0x05] 1 1 0 false)) = some (0x002, 0, false, 1) := by decide
/-- W18, W19, W23, W7. -/
theorem test_decodeValue_errors :
    results (exec .decodeValue (busyWith chip8 2 [0x81, 0x7F] 2 0 0 false)) = some (0x002, 255, false, 2) ∧
    outcome (exec .decodeValue (busyWith chip8 2 [0x82, 0x00] 2 0 0 false)) = some (0x204, 0, []) ∧
    outcome (exec .decodeValue (busyWith chip32 2 [0x05, 0x81] 2 1 0 false)) = some (0x104, 1, []) ∧
    outcome (exec .decodeValue (busyWith chip32 2 [] 0 1 0 false)) = some (0x404, 1, []) := by decide

/-- S10, S11. -/
theorem test_encodeSection :
    outcome (exec .encodeSection (busyWith chip32 3 [] 0 0 64 false)) = some (0x002, 0, [0x81, 0x00]) ∧
    outcome (exec .encodeSection (busyWith chip32 3 [] 0 0 64 true)) = some (0x002, 0, [0x81, 0x01]) := by decide
/-- S3, S13. -/
theorem test_encodeSection_ends :
    outcome (exec .encodeSection (busyWith chip32 3 [] 0 0 0 false)) = some (0x002, 0, []) ∧
    outcome (exec .encodeSection (busyWith chip32 3 [] 0 0 2147483648 false)) = some (0x504, 0, []) := by decide

/-- T5, T9. -/
theorem test_decodeSection :
    results (exec .decodeSection (busyWith chip32 4 [0x81, 0x01] 2 0 0 false)) = some (0x002, 64, true, 2) ∧
    results (exec .decodeSection (busyWith chip32 4 [0x0B, 0x01, 0x02] 3 0 0 false)) = some (0x002, 5, true, 1) := by
  decide
/-- T10, T12. -/
theorem test_decodeSection_errors :
    outcome (exec .decodeSection (busyWith chip32 4 [0x81] 1 0 0 false)) = some (0x104, 0, []) ∧
    outcome (exec .decodeSection (busyWith chip32 4 [0x05] 1 2 0 false)) = some (0x404, 2, []) := by decide

/-- E2 (X10), E1 (X9 corrected). -/
theorem test_encodeStream :
    outcome (exec .encodeStream (busyWith chip32 5 [0x41, 0x41, 0x42, 0x42, 0x42, 0x43] 6 0 0 false)) =
      some (0x002, 0, [0x04, 0x41, 0x06, 0x42, 0x03, 0x43]) ∧
    outcome (exec .encodeStream (busyWith chip32 5 [0x42, 0x42, 0x42] 3 0 0 false)) = some (0x002, 0, [0x06, 0x42]) := by
  decide
/-- Like E19b with OUT_CAP = 2: the run `04 01` fits, and the literal at IN index 2 does not (42_rle_encoder.md R101). E20:
IN_LEN = IN_CAP + 1. -/
theorem test_encodeStream_errors :
    outcome (exec .encodeStream (busyWith chip8 5 [0x01, 0x01, 0x02, 0x03] 4 0 0 false)) = some (0x304, 2, []) ∧
    outcome (exec .encodeStream (busyWith chip32 5 [] 9 0 0 false)) = some (0x504, 0, []) := by decide

/-- F2, F13. -/
theorem test_decodeStream :
    outcome (exec .decodeStream (busyWith chip32 6 [0x04, 0x41, 0x06, 0x42, 0x03, 0x43] 6 0 0 false)) =
      some (0x002, 0, [0x41, 0x41, 0x42, 0x42, 0x42, 0x43]) ∧
    outcome (exec .decodeStream (busyWith chip32 6 [0x80, 0x06, 0x42] 3 0 0 false)) =
      some (0x002, 0, [0x42, 0x42, 0x42]) := by decide
/-- F8, F9, F18, and F19 and F20 with OUT_CAP = 6. -/
theorem test_decodeStream_errors :
    outcome (exec .decodeStream (busyWith chip32 6 [0x03, 0x43, 0x04] 3 0 0 false)) = some (0x104, 2, []) ∧
    outcome (exec .decodeStream (busyWith chip32 6 [0x06, 0x42, 0x0B, 0x01, 0x02] 5 0 0 false)) = some (0x104, 2, []) ∧
    outcome (exec .decodeStream (busyWith chip32 6 [0x03, 0x43, 0xFF, 0xFF, 0xFF, 0xFF, 0x7F] 7 0 0 false)) =
      some (0x204, 2, []) ∧
    outcome (exec .decodeStream (busyWith chip32 6 [0x81, 0x00, 0x41] 3 0 0 false)) = some (0x304, 0, []) ∧
    outcome (exec .decodeStream (busyWith chip32 6 [0x81, 0x00] 2 0 0 false)) = some (0x104, 0, []) := by decide

/-- R2v, R5v: E_BADCMD before E_ARG. -/
theorem test_reserved0 :
    outcome (exec .reserved0 (busyWith chip32 0 [] 9 0 0 false)) = some (0x604, 0, []) := by decide
theorem test_reserved7 :
    outcome (exec .reserved7 (busyWith chip32 7 [] 0 0 0 false)) = some (0x604, 0, []) := by decide
theorem test_reserved8toF :
    outcome (exec (.reserved8toF 0xC) (busyWith chip32 0xC [] 0 0 0 false)) = some (0x604, 0, []) := by decide

/-! ### Host accesses and the step -/

/-- R3v, R8v: OP and LIT keep only their bits. -/
theorem test_register_fields :
    regValue 0x0 (hostOp (.wrReg 0x0 0xFFFFFFFFFFFFFFF7) State.reset) = 0x7 ∧
    regValue 0x5 (hostOp (.wrReg 0x5 0x3) State.reset) = 0x1 := by decide

/-- P5: the write of IN_LEN is dropped when it comes while BUSY, and stored when the engine has completed first. -/
theorem test_write_while_busy_both_outcomes :
    ((nextOf (step { busyWith chip32 5 [0xAA, 0xAA] 2 0 0 false with
      queue := [.wrReg 0x2 1], turns := [.host] })).map (·.inLen)) = some 2 ∧
    (((nextOf (step { busyWith chip32 5 [0xAA, 0xAA] 2 0 0 false with
      queue := [.wrReg 0x2 1], turns := [.engine, .host] })).bind (fun t => nextOf (step t))).map (·.inLen)) =
      some 1 := by decide

/-- P1, as its host accesses (30_encoding.md R78). -/
theorem test_host_notation :
    wrInOps 0 [0x41, 0x42] ++ [.wrReg 0x2 2] ++ runOps .encodeStream ++ rdOutOps 0 2 =
      [.wrIn 0 0x41, .wrIn 1 0x42, .wrReg 0x2 2, .wrReg 0x0 0x0000000000000005, .wait, .rdOut 0, .rdOut 1] := by decide

/-- ENCODE_VALUE as the first command after reset: 0 encodes to no byte (V1). -/
theorem test_first_command_after_reset :
    outcome (step (State.reset.withFetchWord 64 0x1)) = some (0x002, 0, []) := by decide

/-! ### Witnesses -/

/-- Legal parameters exist at both ends of VAL_W, with the least memories. -/
theorem witness_params :
    Params.vectors.Wf ∧ chip32.Wf ∧ chip8.Wf ∧ (Params.mk 8 1 2 0 0 0).Wf ∧ (Params.mk 64 1 10 0 0 0).Wf := by decide

theorem witness_DecodeAndEncodeAgree :
    (Instr.reserved8toF 0x8).wellFormed = true ∧ (Instr.reserved8toF 0xF).wellFormed = true ∧
      Instr.encodeValue.wellFormed = true := by decide

/-- A BUSY state with an ENCODE latched, for the statements about BUSY states. -/
def busyEncode : State := busyWith chip32 5 [0xAA, 0xAA] 2 0 0 false

theorem witness_StepRunsTheLatchedCommand :
    decode (busyEncode.latch.op.setWidth 64) = .encodeStream ∧ busyEncode.phase = .busy ∧ busyEncode.turns = [] ∧
    { busyEncode with turns := [.engine] }.phase = .busy ∧
    { busyEncode with turns := [.engine] }.turns = .engine :: [] ∧
    { State.reset with turns := [.engine] }.phase = .idle ∧
    decode ({ State.reset with turns := [.engine] }.latch.op.setWidth 64) = .reserved0 := by decide

theorem witness_StepAfterWithFetchWordRunsTheWord :
    decodeTableWord 64 0xFFFFFFFFFFFFFFFF = some (.reserved8toF 0xF) ∧ decodeTableWord 8 0x1 = some .encodeValue := by decide

theorem witness_CmdWriteStartsACommand :
    { State.reset with queue := [.wrReg 0x0 5], turns := [.host] }.queue = .wrReg 0x0 5 :: [] ∧
    { State.reset with queue := [.wrReg 0x0 5], turns := [.host] }.turns = .host :: [] ∧
    { State.reset with queue := [.wrReg 0x0 5], turns := [.host] }.phase = .idle ∧
    { busyEncode with queue := [.wrReg 0x0 5], turns := [.host] }.queue = .wrReg 0x0 5 :: [] ∧
    { busyEncode with queue := [.wrReg 0x0 5], turns := [.host] }.turns = .host :: [] ∧
    { busyEncode with queue := [.wrReg 0x0 5], turns := [.host] }.phase = .busy := by decide

/-- For HostAccessWhileBusyOnlyReads, RegisterReadsWhileBusy (the ends of both index ranges), RegisterReadsFollowTheMap and
OperandRegisterWrites. -/
theorem witness_register_phases :
    busyEncode.phase = .busy ∧ State.reset.phase = .idle ∧ ((5 : Nat) < 6 ∨ 11 ≤ (5 : Nat)) ∧
    ((11 : Nat) < 6 ∨ 11 ≤ (11 : Nat)) ∧ (6 ≤ (6 : Nat) ∧ (6 : Nat) ≤ 10) ∧ (6 ≤ (10 : Nat) ∧ (10 : Nat) ≤ 10) := by decide

theorem witness_ReservedRegistersReadZero :
    (0xB ≤ (0xB : Nat) ∧ (0xB : Nat) ≤ 0xF) ∧ (0xB ≤ (0xF : Nat) ∧ (0xF : Nat) ≤ 0xF) := by decide

theorem witness_AccessOutsideAWindow :
    busyEncode.cfg.inCap ≤ 8 ∧ busyEncode.cfg.outCap ≤ 6 ∧ 0xF < (0x10 : Nat) := by decide

theorem witness_InWriteStoresOneByte :
    7 < busyEncode.cfg.inCap ∧ busyEncode.inMem.wf = true ∧ busyEncode.phase = .busy ∧
    7 < State.reset.cfg.inCap ∧ State.reset.inMem.wf = true ∧ State.reset.phase = .idle := by decide

/-- A state after DONE, with a result byte in OUT. -/
def doneValue : State := completeDone ⟨[0x05], 0, false, 0⟩ (busyWith chip32 1 [0x41] 0 0 5 false)

theorem witness_MemoryReadsReturnTheStoredByte :
    0 < doneValue.cfg.inCap ∧ doneValue.inMem.read 0 = some 0x41 ∧
    7 < doneValue.cfg.inCap ∧ doneValue.inMem.read 7 = none ∧
    0 < doneValue.cfg.outCap ∧ doneValue.phase = .idle ∧ doneValue.outMem.read 0 = some 0x05 ∧
    5 < doneValue.cfg.outCap ∧ doneValue.outMem.read 5 = none ∧
    5 < busyEncode.cfg.outCap ∧ busyEncode.phase = .busy := by decide

theorem witness_WaitRepeatsWhileBusyBitIsSet :
    { busyEncode with queue := [.wait] }.queue = .wait :: [] ∧ busyEncode.status.getLsbD 0 = true ∧
    { doneValue with queue := [.wait] }.queue = .wait :: [] ∧ doneValue.status.getLsbD 0 = false := by decide

/-- A reset while BUSY, for ResetClearsEveryRegister. -/
theorem witness_ResetClearsEveryRegister :
    { busyEncode with turns := [.reset] }.turns = .reset :: [] ∧ busyEncode.phase = .busy := by decide

theorem busyEncode_inv : busyEncode.Inv :=
  ⟨by decide, by decide, by decide, by decide, by decide, by decide, by decide, by decide, by decide, by decide,
    by decide, by decide⟩

/-- The invariant holds in a BUSY state whose step is the completion of a command. -/
theorem witness_EveryStepKeepsInvariant : busyEncode.Inv ∧ ∃ t, step busyEncode = .next t := ⟨busyEncode_inv, _, rfl⟩

/-- Start, completion and reset each change STATUS and the phase. -/
theorem witness_StatusChangesOnlyAtStartCompletionReset :
    ((nextOf (step { State.reset with queue := [.wrReg 0x0 1] })).map fun t => (t.status, t.phase)) =
      some (0x001, .busy) ∧
    ((nextOf (step busyEncode)).map fun t => (t.status, t.phase)) = some (0x002, .idle) ∧
    ((nextOf (step { busyEncode with turns := [.reset] })).map fun t => (t.status, t.phase)) = some (0x000, .idle) := by
  decide

theorem witness_InChangesOnlyByHostWriteOrReset :
    State.reset.inMem.wf = true ∧ busyEncode.inMem.wf = true ∧
    ((nextOf (step { State.reset with queue := [.wrIn 0 0x41] })).map (·.inMem.read 0)) = some (some 0x41) ∧
    State.reset.inMem.read 0 = none ∧
    ((nextOf (step { busyEncode with turns := [.reset] })).map (·.inMem.read 0)) = some none ∧
    busyEncode.inMem.read 0 = some 0xAA := by decide

theorem witness_OutChangesOnlyByCompletionOrReset :
    ((nextOf (step busyEncode)).map (·.outMem)) = some [(0, 0x04), (1, 0xAA)] ∧ busyEncode.outMem = [] ∧
    ((nextOf (step { doneValue with turns := [.reset] })).map (·.outMem)) = some [] ∧ doneValue.outMem = [(0, 0x05)] := by
  decide

theorem witness_CompletionFrame : busyEncode.cfg.Wf ∧ ∃ t, exec .encodeStream busyEncode = .next t := ⟨by decide, _, rfl⟩

/-- IN with only the byte at address 1 written, and a DECODE_VALUE that starts there. -/
def busyFromOne : State := { busyWith chip32 2 [] 2 1 0 false with inMem := [(1, 0x05)] }

/-- ENCODE over written input, DECODE_VALUE with the byte below ARG_OFFSET not written, and commands that read no byte. -/
theorem witness_EveryCommandCompletesOnWrittenInput :
    InputWritten .encodeStream busyEncode ∧ MayRead .encodeStream busyEncode 1 ∧
    InputWritten .decodeValue busyFromOne ∧ MayRead .decodeValue busyFromOne 1 ∧ busyFromOne.inMem.read 0 = none ∧
    InputWritten .encodeValue State.reset ∧ InputWritten (.reserved8toF 0x8) State.reset := by
  refine ⟨fun a h => ?_, ⟨by decide, by decide⟩, fun a h => ?_, ⟨by decide, by decide, by decide⟩, rfl, fun a h => h.elim,
    fun a h => h.elim⟩
  · have key : ∀ a, a < 2 → (busyEncode.inMem.read a).isSome = true := by decide
    exact key a h.2
  · obtain rfl : a = 1 := Nat.le_antisymm (Nat.le_of_lt_succ h.2.2) h.2.1
    rfl

/-- Each command that reads IN is refused at the first byte it reads, when no byte has been written. -/
theorem witness_RefusalOnlyAtAnUnwrittenByte :
    exec .decodeValue (busyWith chip32 2 [] 1 0 0 false) = .refused (.uninitRead 0) ∧
    exec .decodeSection (busyWith chip32 4 [0x80] 2 0 0 false) = .refused (.uninitRead 1) ∧
    exec .encodeStream (busyWith chip32 5 [0x41, 0x41] 3 0 0 false) = .refused (.uninitRead 2) ∧
    exec .decodeStream (busyWith chip32 6 [0x05, 0x41] 3 0 0 false) = .refused (.uninitRead 2) := ⟨rfl, rfl, rfl, rfl⟩

/-- Two states with other registers, other bytes outside the range read, and the same operands, for each kind of command. -/
theorem witness_ResultDependsOnlyOnOperandsRead :
    (busyWith chip32 1 [] 0 0 5 false).cfg = (busyWith chip32 1 [0x41] 9 9 5 true).cfg ∧
    SameOperands .encodeValue (busyWith chip32 1 [] 0 0 5 false) (busyWith chip32 1 [0x41] 9 9 5 true) ∧
    SameOperands .encodeSection (busyWith chip32 3 [] 0 0 5 true) (busyWith chip32 3 [0x41] 9 9 5 true) ∧
    SameOperands .decodeValue (busyWith chip32 2 [0x01, 0x05] 2 1 0 false) (busyWith chip32 2 [0x02, 0x05] 2 1 7 true) ∧
    SameOperands .decodeSection (busyWith chip32 4 [0x01, 0x05] 2 1 0 false)
      (busyWith chip32 4 [0x02, 0x05] 2 1 7 true) ∧
    SameOperands .encodeStream (busyWith chip32 5 [0x01] 1 0 0 false) (busyWith chip32 5 [0x01, 0x02] 1 3 4 true) ∧
    SameOperands .decodeStream (busyWith chip32 6 [0x01] 1 0 0 false) (busyWith chip32 6 [0x01, 0x02] 1 3 4 true) ∧
    SameOperands .reserved0 (busyWith chip32 0 [] 0 0 0 false) (busyWith chip32 0 [0x41] 9 9 9 true) := by
  refine ⟨rfl, rfl, ⟨rfl, rfl⟩, ⟨rfl, rfl, ?_⟩, ⟨rfl, rfl, ?_⟩, ⟨rfl, ?_⟩, ⟨rfl, ?_⟩, trivial⟩
  · intro a h1 h2
    obtain rfl : a = 1 := Nat.le_antisymm (Nat.le_of_lt_succ h2) h1
    rfl
  · intro a h1 h2
    obtain rfl : a = 1 := Nat.le_antisymm (Nat.le_of_lt_succ h2) h1
    rfl
  · intro a h
    obtain rfl : a = 0 := Nat.lt_one_iff.mp h
    rfl
  · intro a h
    obtain rfl : a = 0 := Nat.lt_one_iff.mp h
    rfl

theorem witness_EncodeValueGivesTheCanonicalVarint :
    (busyWith chip32 1 [] 0 0 4294967295 false).latch.argValue.toNat < 2 ^ chip32.valW ∧
    2 ^ chip32.valW ≤ (busyWith chip32 1 [] 0 0 4294967296 false).latch.argValue.toNat := by decide

/-- W18: 81 7F is the largest value of VAL_W = 8. The same state serves DecodeSectionSplitsTheHeader. -/
theorem witness_DecodeValueGivesTheVarintsValue :
    chip8.Wf ∧ (busyWith chip8 2 [0x81, 0x7F] 2 0 0 false).latch.inLen.toNat ≤ chip8.inCap ∧
    isVarint [0x81, 0x7F] = true ∧ varintValue [0x81, 0x7F] < 2 ^ chip8.valW ∧
    Holds (busyWith chip8 2 [0x81, 0x7F] 2 0 0 false).inMem 0 [0x81, 0x7F] ∧ 0 + [(0x81 : Byte), 0x7F].length ≤ 2 ∧
    (busyWith chip8 2 [0x81, 0x7F] 2 2 0 false).latch.argOffset =
      (busyWith chip8 2 [0x81, 0x7F] 2 2 0 false).latch.inLen := by decide

theorem witness_EncodeSectionGivesTheHeader :
    (busyWith chip32 3 [] 0 0 2147483647 true).latch.argValue.toNat < 2 ^ (chip32.valW - 1) ∧
    2 ^ (chip32.valW - 1) ≤ (busyWith chip32 3 [] 0 0 2147483648 false).latch.argValue.toNat := by decide

/-- W21, W7, W19, W23 and W22: every error of the two varint decoders. -/
theorem witness_VarintDecodeErrors :
    chip8.Wf ∧ chip32.Wf ∧ chip32.inCap < (busyWith chip32 2 [] 9 17 0 false).latch.inLen.toNat ∧
    (busyWith chip32 2 [] 0 1 0 false).latch.inLen.toNat < (busyWith chip32 2 [] 0 1 0 false).latch.argOffset.toNat ∧
    (isVarint [0x82, 0x00] = true ∧ 2 ^ chip8.valW ≤ varintValue [0x82, 0x00] ∧
      Holds (busyWith chip8 2 [0x82, 0x00] 2 0 0 false).inMem 0 [0x82, 0x00] ∧ 0 + 2 ≤ (2 : Word).toNat ∧
      (2 : Word).toNat ≤ chip8.inCap) ∧
    (allCont [0x81] = true ∧ Holds (busyWith chip32 2 [0x05, 0x81] 2 1 0 false).inMem 1 [0x81] ∧
      1 + [(0x81 : Byte)].length = (2 : Word).toNat ∧ varintValue [0x81] < 2 ^ chip32.valW) ∧
    (allCont [0xFF, 0xFF, 0xFF, 0xFF, 0xFF] = true ∧
      Holds (busyWith chip32 2 [0xFF, 0xFF, 0xFF, 0xFF, 0xFF] 5 0 0 false).inMem 0 [0xFF, 0xFF, 0xFF, 0xFF, 0xFF] ∧
      2 ^ chip32.valW ≤ varintValue [0xFF, 0xFF, 0xFF, 0xFF, 0xFF]) := by decide

/-- E2's sections. -/
def sectionsE2 : List Section := [.run 2 0x41, .run 3 0x42, .literal [0x43]]

/-- E2 fits exactly in OUT_CAP = 6. With OUT_CAP = 5 its third section does not fit. -/
theorem witness_EncodeGivesTheCanonicalStream :
    canonicalStream sectionsE2 = true ∧ expandAll sectionsE2 = [0x41, 0x41, 0x42, 0x42, 0x42, 0x43] ∧
    Holds (busyWith chip32 5 (expandAll sectionsE2) 6 0 0 false).inMem 0 (expandAll sectionsE2) ∧
    (expandAll sectionsE2).length = (busyWith chip32 5 (expandAll sectionsE2) 6 0 0 false).latch.inLen.toNat ∧
    (6 : Nat) ≤ chip32.inCap ∧ (streamBytes sectionsE2).length ≤ chip32.outCap ∧
    sectionsE2 = [.run 2 0x41, .run 3 0x42] ++ .literal [0x43] :: [] ∧
    (streamBytes [.run 2 0x41, .run 3 0x42]).length ≤ { chip32 with outCap := 5 }.outCap ∧
    { chip32 with outCap := 5 }.outCap < (streamBytes ([.run 2 0x41, .run 3 0x42] ++ [.literal [0x43]])).length ∧
    chip32.inCap < (busyWith chip32 5 [] 9 0 0 false).latch.inLen.toNat := by decide

/-- A non-minimal header, a run of length 0 and an empty literal. -/
def wireSections : List WireSection := [⟨[0x80, 0x06], [0x42]⟩, ⟨[0x00], [0x55]⟩, ⟨[0x01], []⟩]

theorem witness_DecodeGivesTheExpansion :
    chip32.Wf ∧ wireSections.all (WireSection.valid chip32.valW) = true ∧
    (wireBytes wireSections).length = (busyWith chip32 6 (wireBytes wireSections) 6 0 0 false).latch.inLen.toNat ∧
    (6 : Nat) ≤ chip32.inCap ∧ Holds (busyWith chip32 6 (wireBytes wireSections) 6 0 0 false).inMem 0 (wireBytes wireSections) ∧
    (wireExpand wireSections).length ≤ chip32.outCap ∧
    chip32.inCap < (busyWith chip32 6 [] 9 0 0 false).latch.inLen.toNat := by decide

/-- The premises of DecodeErrorsAtTheFirstFailingSection that all its clauses share, of the state that latched a DECODE of
the listed bytes. -/
abbrev FailingPremises (c : Params) (xs : List WireSection) (h p : List Byte) (n : Word) : Prop :=
  c.Wf ∧ xs.all (WireSection.valid c.valW) = true ∧ (wireExpand xs).length ≤ c.outCap ∧
  (wireBytes xs ++ h ++ p).length = (busyWith c 6 (wireBytes xs ++ h ++ p) n 0 0 false).latch.inLen.toNat ∧
  n.toNat ≤ c.inCap ∧ Holds (busyWith c 6 (wireBytes xs ++ h ++ p) n 0 0 false).inMem 0 (wireBytes xs ++ h ++ p) ∧ h ≠ []

/-- A header that runs off the end after a good section, without and with overflow; F18 (overflow); F8 (no payload byte) and
F9 (a literal with 2 of 5 bytes); and F19 with OUT_CAP = 6. -/
theorem witness_DecodeErrorsAtTheFirstFailingSection :
    (FailingPremises chip32 [⟨[0x03], [0x43]⟩] [0x81] [] 3 ∧ allCont [0x81] = true ∧
      varintValue [0x81] < 2 ^ chip32.valW) ∧
    (FailingPremises chip8 [⟨[0x03], [0x43]⟩] [0x82, 0x80] [] 4 ∧ allCont [0x82, 0x80] = true ∧
      2 ^ chip8.valW ≤ varintValue [0x82, 0x80]) ∧
    (FailingPremises chip32 [⟨[0x03], [0x43]⟩] [0xFF, 0xFF, 0xFF, 0xFF, 0x7F] [] 7 ∧
      isVarint [0xFF, 0xFF, 0xFF, 0xFF, 0x7F] = true ∧ 2 ^ chip32.valW ≤ varintValue [0xFF, 0xFF, 0xFF, 0xFF, 0x7F]) ∧
    (FailingPremises chip32 [⟨[0x03], [0x43]⟩] [0x04] [] 3 ∧ isVarint [0x04] = true ∧
      ([] : List Byte).length < (if varintValue [0x04] % 2 = 1 then varintValue [0x04] / 2 else 1)) ∧
    (FailingPremises chip32 [⟨[0x06], [0x42]⟩] [0x0B] [0x01, 0x02] 5 ∧ isVarint [0x0B] = true ∧
      [(0x01 : Byte), 0x02].length < (if varintValue [0x0B] % 2 = 1 then varintValue [0x0B] / 2 else 1)) ∧
    (FailingPremises chip32 [] [0x81, 0x00] [0x41] 3 ∧ isVarint [0x81, 0x00] = true ∧
      varintValue [0x81, 0x00] < 2 ^ chip32.valW ∧
      (if varintValue [0x81, 0x00] % 2 = 1 then varintValue [0x81, 0x00] / 2 else 1) ≤ [(0x41 : Byte)].length ∧
      chip32.outCap < (wireExpand []).length + varintValue [0x81, 0x00] / 2) := by
  refine ⟨?_, ?_, ?_, ?_, ?_, ?_⟩ <;> decide

theorem witness_ReservedCodesCompleteWithBadCommand :
    State.reset.phase = .idle ∧ (0x10 : Word) &&& 0xF = 0 ∧ 7 ≤ ((0xFFFFFFFFFFFFFFF7 : Word) &&& 0xF).toNat ∧
    7 ≤ ((0xF : Word) &&& 0xF).toNat := by decide

/-- The ends of the range at VAL_W = 8 and VAL_W = 64. -/
theorem witness_VarintRoundTrip :
    (8 : Nat) ≤ 8 ∧ (8 : Nat) ≤ 64 ∧ 255 < 2 ^ 8 ∧ 1 ≤ (255 : Nat) ∧ (0 : Nat) < 2 ^ 8 ∧ [(0x00 : Byte)] ≠ [] ∧
    8 ≤ (64 : Nat) ∧ (64 : Nat) ≤ 64 ∧ 18446744073709551615 < 2 ^ 64 := by decide

/-- 300 = 2*128 + 44 (V11) has a canonical varint and a longer one. -/
theorem witness_VarintEncodingIsTheCanonicalForm :
    IsCanonicalVarint 300 [0x82, 0x2C] ∧ isVarint [0x80, 0x82, 0x2C] = true ∧ varintValue [0x80, 0x82, 0x2C] = 300 ∧
      300 < 128 ^ 2 := by
  refine ⟨?_, by decide, by decide, by decide⟩
  rw [IsCanonicalVarint, if_neg (by decide)]
  decide

theorem witness_VarintIsMinimal :
    varintDecode 8 (fun a => [(0x80 : Byte), 0x05][a]?) [(0x80 : Byte), 0x05].length 0 = .ok (5, 2) := rfl

/-- Non-canonical varints that fit, one that does not at VAL_W = 8, the largest value, and a byte after the empty varint. -/
theorem witness_VarintPrefixDecodes :
    isVarint [0x80, 0x05] = true ∧ varintValue [0x80, 0x05] < 2 ^ 8 ∧ isVarint [0x00] = true ∧ varintValue [0x00] < 2 ^ 8 ∧
    isVarint [0x81, 0x7F] = true ∧ varintValue [0x81, 0x7F] < 2 ^ 8 ∧
    isVarint [0x82, 0x00] = true ∧ 2 ^ 8 ≤ varintValue [0x82, 0x00] ∧ 1 ≤ (255 : Nat) ∧ 255 < 2 ^ 8 ∧
    [(0x00 : Byte)] ≠ [] := by decide

theorem witness_SectionHeaderRoundTrip :
    127 < 2 ^ (8 - 1) ∧ 1 ≤ 2 * 127 + (if true then 1 else 0) ∧ 0 < 2 ^ (8 - 1) ∧
      1 ≤ 2 * 0 + (if true then 1 else 0) := by decide

theorem witness_EncodedSizeBound :
    rleEncode 6 (fun a => [(0x07 : Byte)][a]?) [(0x07 : Byte)].length = .ok [0x03, 0x07] ∧
    encBound (Params.mk 8 1 2 0 0 0).inCap ≤ (Params.mk 8 1 2 0 0 0).outCap ∧
    ∃ t, exec .encodeStream (busyWith (Params.mk 8 1 2 0 0 0) 5 [0x07] 1 0 0 false) = .next t :=
  ⟨rfl, by decide, _, rfl⟩

theorem witness_RleRoundTrip :
    (∀ xs : List Section, canonicalStream xs = true → expandAll xs = [0x42, 0x42, 0x42] →
      ∀ x ∈ xs, x.headerValue < 2 ^ 8) ∧
    chip8.Wf ∧ canonicalStream [.run 8 0x42] = true ∧ (expandAll [.run 8 0x42]).length ≤ chip8.inCap := by
  refine ⟨fun xs _ h x hx => ?_, by decide, by decide, by decide⟩
  have := Section.headerValue_le hx
  rw [h] at this
  exact Nat.lt_of_le_of_lt this (by decide)

/-- The block of P2 after its copy: a DECODE latched, and IN holding E2's encoding. -/
def busyDecodeE2 : State := busyWith chip32 6 [0x04, 0x41, 0x06, 0x42, 0x03, 0x43] 6 0 0 false

/-- P2: B = 41 41 42 42 42 43, whose encoding fits exactly in OUT_CAP = 6. `busyDecodeE2` meets the premises on the state that
runs DECODE, against the state `t` that ENCODE leaves. -/
theorem witness_EncodeThenDecodeGivesTheBuffer :
    (chip32.Wf ∧ (busyWith chip32 5 (expandAll sectionsE2) 6 0 0 false).latch.inLen.toNat = (expandAll sectionsE2).length ∧
      Holds (busyWith chip32 5 (expandAll sectionsE2) 6 0 0 false).inMem 0 (expandAll sectionsE2) ∧
      (expandAll sectionsE2).length ≤ chip32.inCap ∧ (expandAll sectionsE2).length ≤ chip32.outCap ∧
      rleEncode chip32.outCap (fun a => (expandAll sectionsE2)[a]?) (expandAll sectionsE2).length =
        .ok [0x04, 0x41, 0x06, 0x42, 0x03, 0x43] ∧ [(0x04 : Byte), 0x41, 0x06, 0x42, 0x03, 0x43].length ≤ chip32.inCap) ∧
    ∃ t, exec .encodeStream (busyWith chip32 5 (expandAll sectionsE2) 6 0 0 false) = .next t ∧
      busyDecodeE2.cfg = t.cfg ∧ busyDecodeE2.latch.inLen = t.outLen ∧
      ∀ a, a < t.outLen.toNat → busyDecodeE2.inMem.read a = t.outMem.read a :=
  ⟨⟨by decide, rfl, by decide, by decide, by decide, rfl, by decide⟩, _, rfl, rfl, rfl, by decide⟩

theorem witness_BusyCommandCompletesAfterHostTurns :
    { busyEncode with queue := [.wait], turns := [.host, .host] }.phase = .busy ∧
    (∀ x ∈ { busyEncode with queue := [.wait], turns := [.host, .host] }.turns, x = .host) ∧
    fetch { busyEncode with queue := [.wait], turns := [.host, .host] } = .encodeStream ∧
    InputWritten .encodeStream { busyEncode with queue := [.wait], turns := [.host, .host] } :=
  ⟨by decide, by decide, by decide, witness_EveryCommandCompletesOnWrittenInput.1⟩

/-- A host turn with an access, with none, with a `WAIT` that stays and one that does not, a turn by default, and a run of
two accesses with more behind them. -/
theorem witness_HostTurnsServeAccessesInIssueOrder :
    { State.reset with turns := [.host] }.turns = .host :: [] ∧ { State.reset with turns := [.host] }.queue = [] ∧
    { busyEncode with queue := [.rdReg 0x1], turns := [.host] }.queue = .rdReg 0x1 :: [] ∧ HostOp.rdReg 0x1 ≠ .wait ∧
    { busyEncode with queue := [.wait], turns := [.host] }.queue = .wait :: [] ∧ busyEncode.status.getLsbD 0 = true ∧
    { doneValue with queue := [.wait] }.queue = .wait :: [] ∧ doneValue.status.getLsbD 0 = false ∧
    (doneValue.turns = [] ∧ doneValue.phase = .idle) ∧
    { State.reset with
      queue := [.wrIn 0 0x41, .wrReg 0x2 1, .wrReg 0x0 5], turns := [.host, .host, .engine] }.queue =
        [.wrIn 0 0x41, .wrReg 0x2 1] ++ [.wrReg 0x0 5] ∧
    { State.reset with
      queue := [.wrIn 0 0x41, .wrReg 0x2 1, .wrReg 0x0 5], turns := [.host, .host, .engine] }.turns =
        List.replicate [HostOp.wrIn 0 0x41, .wrReg 0x2 1].length .host ++ [.engine] ∧
    HostOp.wait ∉ [HostOp.wrIn 0 0x41, .wrReg 0x2 1] := by decide

end Sys2Proof.Tests
end

section
/-! The host's register accesses (10_state.md R20, R32, R33): how the step at a host turn, a register write and a register
read answer in each phase, and the obligations they settle. -/

namespace Sys2Proof.Machine

/-! ### The step at the host's turn -/

theorem step_of_host_turn {s : State} {ts : List Turn} (h : s.turns = .host :: ts) :
    step s = .next (hostStep { s with turns := ts }) := by
  simp [step, nextTurn, h, takeTurn]

theorem hostStep_of_queue_cons {s : State} {op : HostOp} {q : List HostOp} (h : s.queue = op :: q) :
    hostStep s = hostOp op { s with queue := if staysQueued op s then op :: q else q } := by
  simp [hostStep, h]

/-- At the host's turn a register write is taken from the queue, and its effect is that of the access alone. -/
theorem step_of_register_write {s : State} {i : Nat} {v : Word} {q : List HostOp} {ts : List Turn}
    (hq : s.queue = .wrReg i v :: q) (ht : s.turns = .host :: ts) :
    step s = .next { hostOp (.wrReg i v) s with queue := q, turns := ts } := by
  rw [step_of_host_turn ht, hostStep_of_queue_cons (s := { s with turns := ts }) hq]
  exact congrArg Host.Outcome.next (hostOp_withSchedule (.wrReg i v) s q ts)

/-! ### Register accesses in each phase -/

theorem hostOp_wrReg_of_idle {s : State} (h : s.phase = .idle) (i : Nat) (v : Word) :
    hostOp (.wrReg i v) s = writeReg i v s := by
  simp [hostOp, hostWriteReg, h]

theorem hostOp_wrReg_of_busy {s : State} (h : s.phase = .busy) (i : Nat) (v : Word) :
    hostOp (.wrReg i v) s = s := by
  simp [hostOp, hostWriteReg, h]

theorem hostOp_rdReg_of_idle {s : State} (h : s.phase = .idle) (i : Nat) :
    hostOp (.rdReg i) s = returnValue (regValue i s) s := by
  simp [hostOp, hostReadReg, h]

theorem hostOp_rdReg_of_busy {s : State} (h : s.phase = .busy) (i : Nat) :
    hostOp (.rdReg i) s = if isResultReg i then returnFreeWord s else returnValue (regValue i s) s := by
  simp [hostOp, hostReadReg, h]

/-- Outside the result registers a read returns the stored value in either phase. -/
theorem hostOp_rdReg_of_not_result {i : Nat} (h : isResultReg i = false) (s : State) :
    hostOp (.rdReg i) s = returnValue (regValue i s) s := by
  rcases s.phase_cases with hp | hp
  · exact hostOp_rdReg_of_idle hp i
  · simp [hostOp_rdReg_of_busy hp, h]

/-! ### Indices above the last register, ERR_POS at 0xA -/

theorem isResultReg_of_ge {i : Nat} (h : 0xB ≤ i) : isResultReg i = false := by
  simp only [isResultReg, Bool.and_eq_false_iff, decide_eq_false_iff_not]
  omega

theorem regValue_of_ge {i : Nat} (h : 0xB ≤ i) (s : State) : regValue i s = 0 := by
  obtain ⟨k, rfl⟩ := Nat.exists_eq_add_of_le' h
  rfl

theorem writeReg_of_ge {i : Nat} (h : 0xB ≤ i) (v : Word) (s : State) : writeReg i v s = s := by
  obtain ⟨k, rfl⟩ := Nat.exists_eq_add_of_le' h
  rfl

/-- A read past the last register returns 0 in either phase. -/
theorem hostOp_rdReg_of_ge {i : Nat} (h : 0xB ≤ i) (s : State) : hostOp (.rdReg i) s = returnValue 0 s := by
  rw [hostOp_rdReg_of_not_result (isResultReg_of_ge h), regValue_of_ge h]

/-- A write past the last register has no effect in either phase. -/
theorem hostOp_wrReg_of_ge {i : Nat} (h : 0xB ≤ i) (v : Word) (s : State) : hostOp (.wrReg i v) s = s := by
  rcases s.phase_cases with hp | hp
  · rw [hostOp_wrReg_of_idle hp, writeReg_of_ge h]
  · exact hostOp_wrReg_of_busy hp i v

/-! ### The obligations -/

/-- Settles O5: the step at a host turn is the access with its schedule taken, and the CMD write is `startCommand` while
IDLE and nothing while BUSY. -/
theorem cmdWriteStartsACommand : Obligations.CmdWriteStartsACommand := by
  intro s v q ts hq ht
  rw [step_of_register_write hq ht]
  constructor
  · intro hidle
    have hstart : hostOp (.wrReg 0x0 v) s = startCommand v s := hostOp_wrReg_of_idle hidle 0x0 v
    rw [hstart]
    rfl
  · intro hbusy
    rw [hostOp_wrReg_of_busy hbusy]

/-- Settles O10: an index from 0xB on is no result register, holds 0, and has no write. -/
theorem reservedRegistersReadZero : Obligations.ReservedRegistersReadZero := by
  intro s i v hlow _
  exact ⟨hostOp_rdReg_of_ge hlow s, hostOp_wrReg_of_ge hlow v s⟩

end Sys2Proof.Machine
end

section
/-! The canonical varint (30_encoding.md R64 to R67): the byte count as the least power of 128 above the value, the value of
the encoder's bytes, and a varint as determined by its value and its length. -/

namespace Sys2Proof.Machine

/-! ### The byte count -/

theorem varintLenLoop_le_iff {f t : Nat} (h : t ≤ f) (k : Nat) : varintLenLoop f t ≤ k ↔ t < 128 ^ k := by
  induction f generalizing t k with
  | zero =>
    obtain rfl : t = 0 := Nat.le_zero.mp h
    simp [varintLenLoop]
  | succ f ih =>
    by_cases ht : t = 0
    · simp [varintLenLoop, ht]
    · have hshift : t >>> 7 = t / 128 := Nat.shiftRight_eq_div_pow t 7
      rw [varintLenLoop, if_neg ht, hshift]
      cases k with
      | zero => simp [ht]
      | succ k =>
        have hrest : varintLenLoop f (t / 128) ≤ k ↔ t / 128 < 128 ^ k := ih (by omega) k
        rw [Nat.div_lt_iff_lt_mul (by decide), ← pow_succ] at hrest
        omega

/-- `vlen(n)` is the least `k` with `n < 128^k`. -/
theorem varintLen_le_iff {n k : Nat} : varintLen n ≤ k ↔ n < 128 ^ k := varintLenLoop_le_iff (Nat.le_refl n) k

theorem lt_pow_varintLen (n : Nat) : n < 128 ^ varintLen n := varintLen_le_iff.mp (Nat.le_refl _)

theorem varintLen_pos {n : Nat} (h : n ≠ 0) : 0 < varintLen n :=
  Nat.lt_of_not_le fun hlen => h (by simpa using varintLen_le_iff.mp hlen)

@[simp] theorem varintEncode_length (n : Nat) : (varintEncode n).length = varintLen n := varintBytes_length n _

/-! ### The value of a byte sequence -/

theorem varintValue_lt (bs : List Byte) : varintValue bs < 128 ^ bs.length := by
  induction bs with
  | nil => simp [varintValue]
  | cons b bs ih =>
    have hgroup : (groupBits b + 1) * 128 ^ bs.length ≤ 128 * 128 ^ bs.length :=
      Nat.mul_le_mul_right _ (groupBits_lt b)
    simp only [varintValue, List.length_cons, pow_succ]
    linarith

theorem varintValue_varintBytes (n k : Nat) : varintValue (varintBytes n k) = n % 128 ^ k := by
  induction k with
  | zero => simp [varintBytes, varintValue, Nat.mod_one]
  | succ k ih =>
    rw [varintBytes, varintValue, varintBytes_length, groupBits_groupByte, ih, Nat.mod_pow_succ]
    ring

@[simp] theorem varintValue_varintEncode (n : Nat) : varintValue (varintEncode n) = n := by
  rw [varintEncode, varintValue_varintBytes, Nat.mod_eq_of_lt (lt_pow_varintLen n)]

/-- The first group of a sequence is its most significant base-128 digit. -/
theorem varintValue_cons_div (b : Byte) (bs : List Byte) : varintValue (b :: bs) / 128 ^ bs.length = groupBits b := by
  rw [varintValue, Nat.mul_comm, Nat.mul_add_div (Nat.pow_pos (by decide)), Nat.div_eq_of_lt (varintValue_lt bs),
    Nat.add_zero]

theorem varintValue_cons_mod (b : Byte) (bs : List Byte) :
    varintValue (b :: bs) % 128 ^ bs.length = varintValue bs := by
  rw [varintValue, Nat.mul_add_mod', Nat.mod_eq_of_lt (varintValue_lt bs)]

theorem varintValue_cons_lt_iff (b : Byte) (bs : List Byte) :
    varintValue (b :: bs) < 128 ^ bs.length ↔ groupBits b = 0 := by
  rw [← varintValue_cons_div b bs, Nat.div_eq_zero_iff_lt (Nat.pow_pos (by decide))]

/-! ### Varints -/

/-- A byte is its continuation bit and its group (30_encoding.md R64). -/
theorem byte_eq_of_contBit_of_groupBits {b c : Byte} (hcont : contBit b = contBit c)
    (hgroup : groupBits b = groupBits c) : b = c := by
  have htop : ∀ x : Byte, contBit x = decide (128 ≤ x.toNat) := by decide
  rw [htop, htop, decide_eq_decide] at hcont
  rw [groupBits_eq, groupBits_eq] at hgroup
  apply BitVec.eq_of_toNat_eq
  omega

theorem isVarint_cons_iff {b : Byte} {bs : List Byte} :
    isVarint (b :: bs) = true ↔ contBit b = decide (bs ≠ []) ∧ (bs ≠ [] → isVarint bs = true) := by
  cases bs <;> simp [isVarint]

theorem isVarint_varintBytes {n k : Nat} (h : k ≠ 0) : isVarint (varintBytes n k) = true := by
  induction k with
  | zero => exact absurd rfl h
  | succ k ih =>
    have hnil : varintBytes n k ≠ [] ↔ k ≠ 0 := by
      rw [← List.length_pos_iff, varintBytes_length, Nat.pos_iff_ne_zero]
    rw [varintBytes, isVarint_cons_iff, contBit_groupByte, decide_eq_decide, hnil]
    exact ⟨Iff.rfl, ih⟩

theorem isVarint_varintEncode {n : Nat} (h : n ≠ 0) : isVarint (varintEncode n) = true :=
  isVarint_varintBytes (varintLen_pos h).ne'

/-- Two sequences that are each empty or a varint are equal when their lengths and their values are. -/
theorem varint_eq_of_length_of_value {bs cs : List Byte} (hbs : bs ≠ [] → isVarint bs = true)
    (hcs : cs ≠ [] → isVarint cs = true) (hlen : bs.length = cs.length) (hval : varintValue bs = varintValue cs) :
    bs = cs := by
  induction bs generalizing cs with
  | nil => exact (List.length_eq_zero_iff.mp hlen.symm).symm
  | cons b bs ih =>
    obtain ⟨c, cs, rfl⟩ := List.exists_cons_of_length_eq_add_one hlen.symm
    have hlen' : bs.length = cs.length := Nat.succ.inj hlen
    have hnil : bs = [] ↔ cs = [] := by rw [← List.length_eq_zero_iff, hlen', List.length_eq_zero_iff]
    obtain ⟨hb, hbs'⟩ := isVarint_cons_iff.mp (hbs (List.cons_ne_nil b bs))
    obtain ⟨hc, hcs'⟩ := isVarint_cons_iff.mp (hcs (List.cons_ne_nil c cs))
    have hcont : contBit b = contBit c := by rw [hb, hc, decide_eq_decide, ne_eq, ne_eq, hnil]
    have hgroup : groupBits b = groupBits c := by
      rw [← varintValue_cons_div b bs, ← varintValue_cons_div c cs, hval, hlen']
    have hrest : varintValue bs = varintValue cs := by
      rw [← varintValue_cons_mod b bs, ← varintValue_cons_mod c cs, hval, hlen']
    rw [byte_eq_of_contBit_of_groupBits hcont hgroup, ih hbs' hcs' hlen' hrest]

/-- In a varint of a positive value 0x80 is the only first byte whose group is 0: a byte 0x00 ends the varint, so it would
be alone and the value 0. -/
theorem varint_head_ne_iff {b : Byte} {bs : List Byte} (h : isVarint (b :: bs) = true)
    (hpos : varintValue (b :: bs) ≠ 0) : b ≠ 0x80 ↔ groupBits b ≠ 0 := by
  constructor
  · intro hb hgroup
    by_cases hnil : bs = []
    · subst hnil
      exact hpos (by simp [varintValue, hgroup])
    · have hcont : contBit b = true := by rw [(isVarint_cons_iff.mp h).1, decide_eq_true hnil]
      exact hb (byte_eq_of_contBit_of_groupBits hcont hgroup)
  · rintro hgroup rfl
    exact hgroup (by decide)

/-- What rules out a first byte 0x80 is the length: no varint of a positive value starts with it unless it is longer than
`vlen` of its value. -/
theorem varint_head?_ne_iff_length_le {bs : List Byte} (h : isVarint bs = true) (hpos : varintValue bs ≠ 0) :
    bs.head? ≠ some 0x80 ↔ bs.length ≤ varintLen (varintValue bs) := by
  cases bs with
  | nil => simp
  | cons b bs =>
    calc (b :: bs).head? ≠ some 0x80 ↔ b ≠ 0x80 := by simp
      _ ↔ groupBits b ≠ 0 := varint_head_ne_iff h hpos
      _ ↔ ¬ varintLen (varintValue (b :: bs)) ≤ bs.length := by rw [varintLen_le_iff, varintValue_cons_lt_iff]
      _ ↔ (b :: bs).length ≤ varintLen (varintValue (b :: bs)) := by
        rw [Nat.not_le, List.length_cons, Nat.succ_le_iff]

/-- The minimal length: a sequence of value `n` is at least as long as `VarintEncode(n)`. -/
theorem varintLen_varintValue_le (bs : List Byte) : varintLen (varintValue bs) ≤ bs.length :=
  varintLen_le_iff.mpr (varintValue_lt bs)

theorem isCanonicalVarint_varintEncode (n : Nat) : IsCanonicalVarint n (varintEncode n) := by
  by_cases hn : n = 0
  · subst hn
    rfl
  · have hvar := isVarint_varintEncode hn
    have hhead := (varint_head?_ne_iff_length_le hvar (by simpa)).mpr (by simp)
    simpa [IsCanonicalVarint, hn, hvar] using hhead

theorem eq_varintEncode_of_isCanonicalVarint {n : Nat} {bs : List Byte} (h : IsCanonicalVarint n bs) :
    bs = varintEncode n := by
  rw [IsCanonicalVarint] at h
  split at h
  case isTrue hn => rw [h, hn, varintEncode_zero]
  case isFalse hn =>
    obtain ⟨hvar, rfl, hhead⟩ := h
    have hlen : bs.length = varintLen (varintValue bs) :=
      Nat.le_antisymm ((varint_head?_ne_iff_length_le hvar hn).mp hhead) (varintLen_varintValue_le bs)
    exact varint_eq_of_length_of_value (fun _ => hvar) (fun _ => isVarint_varintEncode hn) (by simpa) (by simp)

/-! ### The obligation -/

/-- Settles O36: a canonical varint has the length and the value of `VarintEncode(n)`, which determine a varint, and the
byte count is the least power of 128 above the value. -/
theorem varintEncodingIsTheCanonicalForm : Obligations.VarintEncodingIsTheCanonicalForm := by
  intro n
  refine ⟨fun bs => ⟨eq_varintEncode_of_isCanonicalVarint, ?_⟩, varintEncode_length n, lt_pow_varintLen n,
    fun _ => varintLen_le_iff.mpr, ?_⟩
  · rintro rfl
    exact isCanonicalVarint_varintEncode n
  · rintro bs - rfl
    exact varintLen_varintValue_le bs

end Sys2Proof.Machine
end

section
/-! The varint decoder (40_varint.md R82, R83): what its loop gives on a varint, canonical or not, that every success is one
of those, and the properties R86 to R88. -/

namespace Sys2Proof.Machine

/-! ### One more byte in front -/

/-- A sequence is read from `p` on when its first byte is read at `p` and the others from `p + 1` on. -/
theorem reads_cons_iff {rd : Nat → Option Byte} {p : Nat} {b : Byte} {bs : List Byte} :
    (∀ k, k < (b :: bs).length → rd (p + k) = (b :: bs)[k]?) ↔
      rd p = some b ∧ ∀ k, k < bs.length → rd (p + 1 + k) = bs[k]? := by
  rw [List.length_cons, Nat.forall_lt_succ_left]
  simp [Nat.add_assoc, Nat.add_comm 1]

/-- An accumulator in front of a sequence takes the first group in, as one pass of the loop does. -/
theorem accumulate_cons (acc : Nat) (b : Byte) (bs : List Byte) :
    acc * 128 ^ (b :: bs).length + varintValue (b :: bs) =
      (acc * 128 + groupBits b) * 128 ^ bs.length + varintValue bs := by
  rw [varintValue, List.length_cons, pow_succ]
  ring

theorem ne_nil_of_isVarint {bs : List Byte} (h : isVarint bs = true) : bs ≠ [] := by
  rintro rfl
  cases h

/-! ### Decoding a varint -/

/-- The loop on a varint: its value behind the accumulator, or E_OVERFLOW when that needs more than `w` bits. An
accumulator that overflows stays too large, because a pass never lowers it. -/
theorem varintLoop_of_isVarint {w off f p acc : Nat} {rd : Nat → Option Byte} {bs : List Byte} (hw : 7 ≤ w)
    (hvar : isVarint bs = true) (hlen : bs.length ≤ f) (hrd : ∀ k, k < bs.length → rd (p + k) = bs[k]?) :
    varintLoop w rd off f p acc =
      if acc * 128 ^ bs.length + varintValue bs < 2 ^ w then
        .ok (acc * 128 ^ bs.length + varintValue bs, p + bs.length)
      else .error (.err .overflow off) := by
  induction bs generalizing f p acc with
  | nil => cases hvar
  | cons b bs ih =>
    obtain ⟨f, rfl⟩ := Nat.exists_eq_add_of_le' (Nat.le_trans (Nat.le_add_left 1 _) hlen)
    obtain ⟨hcont, hrest⟩ := isVarint_cons_iff.mp hvar
    obtain ⟨hb, hrd'⟩ := reads_cons_iff.mp hrd
    rw [varintLoop_succ hb, accumulate_cons]
    by_cases hover : 2 ^ w ≤ acc * 128 + groupBits b
    · have hgrow : acc * 128 + groupBits b ≤ (acc * 128 + groupBits b) * 128 ^ bs.length :=
        Nat.le_mul_of_pos_right _ (Nat.pow_pos (by decide))
      rw [if_pos ((overflow_test hw b).mpr hover), if_neg (by omega)]
    · rw [if_neg (mt (overflow_test hw b).mp hover)]
      by_cases hnil : bs = []
      · subst hnil
        simp [hcont, varintValue, Nat.lt_of_not_le hover]
      · have hmore : contBit b = true := by rw [hcont, decide_eq_true hnil]
        rw [if_pos hmore, ih (hrest hnil) (Nat.le_of_succ_le_succ hlen) hrd', List.length_cons, Nat.add_assoc,
          Nat.add_comm 1]

/-- `VarintDecode` of a varint inside the buffer, whatever follows it: its value and the offset past it, or E_OVERFLOW. -/
theorem varintDecode_of_isVarint {w len off : Nat} {rd : Nat → Option Byte} {bs : List Byte} (hw : 7 ≤ w)
    (hvar : isVarint bs = true) (hlen : off + bs.length ≤ len) (hrd : ∀ k, k < bs.length → rd (off + k) = bs[k]?) :
    varintDecode w rd len off =
      if varintValue bs < 2 ^ w then .ok (varintValue bs, off + bs.length) else .error (.err .overflow off) := by
  have hpos : 0 < bs.length := List.length_pos_of_ne_nil (ne_nil_of_isVarint hvar)
  rw [varintDecode, if_neg (by omega), varintLoop_of_isVarint hw hvar (by omega) hrd]
  simp

/-- A varint at the start of a buffer, followed by any bytes. -/
theorem varintDecode_append {w : Nat} {bs : List Byte} (hw : 7 ≤ w) (hvar : isVarint bs = true) (t : List Byte) :
    varintDecode w (fun a => (bs ++ t)[a]?) (bs ++ t).length 0 =
      if varintValue bs < 2 ^ w then .ok (varintValue bs, bs.length) else .error (.err .overflow 0) := by
  rw [varintDecode_of_isVarint hw hvar (by simp) fun k hk => by simp [List.getElem?_append_left hk],
    Nat.zero_add]

/-- The encoding of a positive value at the start of a buffer, followed by any bytes. -/
theorem varintDecode_varintEncode_append {w n : Nat} (hw : 7 ≤ w) (hn : n ≠ 0) (hlt : n < 2 ^ w) (t : List Byte) :
    varintDecode w (fun a => (varintEncode n ++ t)[a]?) (varintEncode n ++ t).length 0 =
      .ok (n, (varintEncode n).length) := by
  rw [varintDecode_append hw (isVarint_varintEncode hn), varintValue_varintEncode, if_pos hlt]

/-! ### What decodes is a varint -/

/-- When the loop succeeds, the bytes it read are a varint, with the value and the end it gives. -/
theorem isVarint_of_varintLoop {w off f p acc v q : Nat} {rd : Nat → Option Byte}
    (h : varintLoop w rd off f p acc = .ok (v, q)) :
    ∃ bs : List Byte, isVarint bs = true ∧ bs.length ≤ f ∧ (∀ k, k < bs.length → rd (p + k) = bs[k]?) ∧
      v = acc * 128 ^ bs.length + varintValue bs ∧ q = p + bs.length := by
  induction f generalizing p acc with
  | zero => cases h
  | succ f ih =>
    cases hb : rd p with
    | none => simp [varintLoop, readByte, hb] at h
    | some b =>
      rw [varintLoop_succ hb] at h
      split at h
      case isTrue => cases h
      case isFalse =>
        split at h
        case isTrue hmore =>
          obtain ⟨bs, hvar, hlen, hrd, rfl, rfl⟩ := ih h
          have hcont : contBit b = decide (bs ≠ []) := by rw [hmore, decide_eq_true (ne_nil_of_isVarint hvar)]
          exact ⟨b :: bs, isVarint_cons_iff.mpr ⟨hcont, fun _ => hvar⟩, Nat.succ_le_succ hlen,
            reads_cons_iff.mpr ⟨hb, hrd⟩, (accumulate_cons acc b bs).symm,
            by rw [List.length_cons, Nat.add_assoc, Nat.add_comm 1]⟩
        case isFalse hlast =>
          obtain ⟨rfl, rfl⟩ := Prod.mk.inj (Except.ok.inj h)
          exact ⟨[b], by simpa [isVarint] using hlast, Nat.le_add_left 1 f, by simpa using hb, by simp [varintValue], rfl⟩

/-- When `VarintDecode` succeeds before the end of the buffer, it has read a varint inside the buffer. -/
theorem isVarint_of_varintDecode {w len off v q : Nat} {rd : Nat → Option Byte} (hoff : off < len)
    (h : varintDecode w rd len off = .ok (v, q)) :
    ∃ bs : List Byte, isVarint bs = true ∧ off + bs.length ≤ len ∧ (∀ k, k < bs.length → rd (off + k) = bs[k]?) ∧
      v = varintValue bs ∧ q = off + bs.length := by
  rw [varintDecode, if_neg hoff.ne] at h
  obtain ⟨bs, hvar, hlen, hrd, hv, hq⟩ := isVarint_of_varintLoop h
  exact ⟨bs, hvar, by omega, hrd, by simpa using hv, hq⟩

theorem varintEncode_head?_ne (n : Nat) : (varintEncode n).head? ≠ some 0x80 := by
  have hcanon := isCanonicalVarint_varintEncode n
  rw [IsCanonicalVarint] at hcanon
  split at hcanon
  · simp [hcanon]
  · obtain ⟨-, -, hhead⟩ := hcanon
    exact hhead

/-- A sequence is at least as long as the encoding of the value it decodes to. -/
theorem varintLen_le_of_varintDecode {w n p : Nat} {bs : List Byte}
    (h : varintDecode w (fun a => bs[a]?) bs.length 0 = .ok (n, p)) : varintLen n ≤ bs.length := by
  rcases Nat.eq_zero_or_pos bs.length with hzero | hpos
  · rw [varintDecode, if_pos hzero.symm] at h
    obtain ⟨rfl, -⟩ := Prod.mk.inj (Except.ok.inj h)
    exact Nat.zero_le _
  · obtain ⟨cs, -, hlen, -, rfl, -⟩ := isVarint_of_varintDecode hpos h
    exact (varintLen_varintValue_le cs).trans (by omega)

/-! ### The obligations -/

/-- Settles O37: a positive value by its varint with nothing behind it, and 0 by the rule for the end of the buffer. -/
theorem varintRoundTrip : Obligations.VarintRoundTrip := by
  intro w n hw _ hlt
  by_cases hn : n = 0
  · subst hn
    rfl
  · simpa using varintDecode_varintEncode_append (by omega) hn hlt []

/-- Settles O38: a sequence decodes to the value of a varint inside it, and no varint is shorter than `vlen` of its value. -/
theorem varintIsMinimal : Obligations.VarintIsMinimal := by
  refine ⟨fun w n p bs _ _ h => ?_, varintEncode_head?_ne, rfl, rfl, rfl⟩
  rw [varintEncode_length]
  exact varintLen_le_of_varintDecode h

/-- Settles O39: what the decoder gives on a varint does not depend on the bytes behind it, and on a byte behind the empty
encoding of 0 it succeeds only past that byte. -/
theorem varintPrefixDecodes : Obligations.VarintPrefixDecodes := by
  intro w t hlow _
  have hw : 7 ≤ w := by omega
  refine ⟨fun bs hvar => ⟨?_, fun hlt => ?_⟩, fun n hn hlt => ?_, fun ht h => ?_⟩
  · have halone := varintDecode_append hw hvar []
    rw [List.append_nil] at halone
    rw [varintDecode_append hw hvar t, halone]
  · rw [varintDecode_append hw hvar t, if_pos hlt]
  · exact varintDecode_varintEncode_append hw (by omega) hlt t
  · obtain ⟨bs, hvar, -, -, -, hend⟩ := isVarint_of_varintDecode (List.length_pos_of_ne_nil ht) h
    exact ne_nil_of_isVarint hvar (by simpa using hend.symm)

end Sys2Proof.Machine
end

section
/-! The section header codec (30_encoding.md R70, 41_section_header.md R89, R90): what the header value holds, and decoding
an encoded header. -/

namespace Sys2Proof.Machine

/-! ### The header value -/

theorem headerValue_shiftRight_one (length : Nat) (literal : Bool) :
    headerValue length literal >>> 1 = length := by
  rw [Nat.shiftRight_eq_div_pow, headerValue]
  split <;> omega

theorem headerValue_testBit_zero (length : Nat) (literal : Bool) :
    (headerValue length literal).testBit 0 = literal := by
  cases literal <;> simp [headerValue, Nat.testBit_zero]

/-- A length below `2^(VAL_W-1)` has a header below `2^VAL_W`. -/
theorem headerValue_lt_two_pow {w length : Nat} (hw : 1 ≤ w) (h : length < 2 ^ (w - 1)) (literal : Bool) :
    headerValue length literal < 2 ^ w := by
  have hpow : 2 ^ w = 2 ^ (w - 1) * 2 := by rw [← pow_succ, Nat.sub_add_cancel hw]
  rw [headerValue]
  split <;> omega

/-! ### Decoding a header -/

/-- `SectionDecode` splits the header value that `VarintDecode` reads. -/
theorem sectionDecode_of_varintDecode {w len off length p : Nat} {literal : Bool} {rd : Nat → Option Byte}
    (h : varintDecode w rd len off = .ok (headerValue length literal, p)) :
    sectionDecode w rd len off = .ok (length, literal, p) := by
  simp only [sectionDecode, h, headerValue_shiftRight_one, headerValue_testBit_zero]

/-! ### The obligation -/

/-- Settles O40: alone, the header decodes by the varint round trip, and before other bytes as the varint of a positive
value. -/
theorem sectionHeaderRoundTrip : Obligations.SectionHeaderRoundTrip := by
  intro w L lit t hlow hhigh hL hcase
  have hlt : headerValue L lit < 2 ^ w := headerValue_lt_two_pow (by omega) hL lit
  apply sectionDecode_of_varintDecode
  rcases hcase with rfl | hpos
  · rw [List.append_nil]
    exact varintRoundTrip w _ hlow hhigh hlt
  · have hne : headerValue L lit ≠ 0 := by rw [headerValue]; omega
    exact varintDecode_varintEncode_append (by omega) hne hlt t

end Sys2Proof.Machine
end

section
/-! The size of ENCODE's output (42_rle_encoder.md R102): what one pass of the encoder consumes and emits, the bound that a
pass keeps, and `ENC_BOUND`. -/

namespace Sys2Proof.Machine

/-! ### Where the searches and the slices stop -/

theorem readSlice_length {rd : Nat → Option Byte} {a k : Nat} {bs : List Byte} (h : readSlice rd a k = .ok bs) :
    bs.length = k := by
  induction k generalizing a bs with
  | zero =>
    obtain rfl := Except.ok.inj h
    rfl
  | succ k ih =>
    unfold readSlice at h
    split at h
    · cases h
    · split at h
      · cases h
      · next hrest =>
        obtain rfl := Except.ok.inj h
        rw [List.length_cons, ih hrest]

theorem readByte_eq_ok_iff {rd : Nat → Option Byte} {a : Nat} {b : Byte} : readByte rd a = .ok b ↔ rd a = some b := by
  cases h : rd a <;> simp [readByte, h]

/-- The search for a run ends at its last place, or earlier at two equal bytes. -/
theorem findRun_ok {rd : Nat → Option Byte} {f i j : Nat} (h : findRun rd f i = .ok j) :
    i ≤ j ∧ (j = i + f ∨ j < i + f ∧ ∃ b, rd j = some b ∧ rd (j + 1) = some b) := by
  induction f generalizing i with
  | zero =>
    obtain rfl := Except.ok.inj h
    exact ⟨Nat.le_refl _, .inl rfl⟩
  | succ f ih =>
    unfold findRun at h
    split at h
    · cases h
    · next a ha =>
      split at h
      · cases h
      · next b hb =>
        split at h
        case isTrue hab =>
          subst hab
          obtain rfl := Except.ok.inj h
          exact ⟨Nat.le_refl _, .inr ⟨by omega, a, readByte_eq_ok_iff.mp ha, readByte_eq_ok_iff.mp hb⟩⟩
        case isFalse =>
          obtain ⟨hle, hend⟩ := ih h
          rw [Nat.add_right_comm, Nat.add_assoc] at hend
          exact ⟨by omega, hend⟩

theorem findRun_error {rd : Nat → Option Byte} {f i : Nat} {e : Stop} (h : findRun rd f i = .error e) :
    ∃ a, e = .uninit a := by
  induction f generalizing i with
  | zero => cases h
  | succ f ih =>
    unfold findRun at h
    split at h
    · next hread =>
      obtain rfl := Except.error.inj h
      exact ⟨_, (readByte_error hread).2⟩
    · split at h
      · next hread =>
        obtain rfl := Except.error.inj h
        exact ⟨_, (readByte_error hread).2⟩
      · split at h
        case isTrue => cases h
        case isFalse => exact ih h

/-- The extension of a run ends at its last place, or earlier at a byte that differs. -/
theorem extendRun_ok {rd : Nat → Option Byte} {b : Byte} {f i j : Nat} (h : extendRun rd b f i = .ok j) :
    i ≤ j ∧ (j = i + f ∨ j < i + f ∧ rd j ≠ some b) := by
  induction f generalizing i with
  | zero =>
    obtain rfl := Except.ok.inj h
    exact ⟨Nat.le_refl _, .inl rfl⟩
  | succ f ih =>
    unfold extendRun at h
    split at h
    · cases h
    · next c hc =>
      split at h
      case isTrue =>
        obtain ⟨hle, hend⟩ := ih h
        rw [Nat.add_right_comm, Nat.add_assoc] at hend
        exact ⟨by omega, hend⟩
      case isFalse hne =>
        obtain rfl := Except.ok.inj h
        rw [readByte_eq_ok_iff] at hc
        exact ⟨Nat.le_refl _, .inr ⟨by omega, by simpa [hc] using hne⟩⟩

theorem extendRun_error {rd : Nat → Option Byte} {b : Byte} {f i : Nat} {e : Stop} (h : extendRun rd b f i = .error e) :
    ∃ a, e = .uninit a := by
  induction f generalizing i with
  | zero => cases h
  | succ f ih =>
    unfold extendRun at h
    split at h
    · next hread =>
      obtain rfl := Except.error.inj h
      exact ⟨_, (readByte_error hread).2⟩
    · split at h
      case isTrue => exact ih h
      case isFalse => cases h

/-! ### One pass of the encoder -/

/-- What one pass of the encoder does with the cursor at `off` (42_rle_encoder.md R96): it stops at a byte that has no value,
or emits the rest as the last literal, or emits in[off, i) as a literal and in[i, j) as a run of two bytes or more and goes
on at `j`. -/
theorem rleEncodeLoop_succ_cases (cap : Nat) (rd : Nat → Option Byte) {n off : Nat} (f : Nat) (out : List Byte)
    (hoff : off ≤ n) :
    (∃ a, rleEncodeLoop cap rd n (f + 1) off out = .error (.uninit a)) ∨
    rleEncodeLoop cap rd n (f + 1) off out = emitLiteral cap rd off n out ∨
    ∃ i j b, off ≤ i ∧ i + 2 ≤ j ∧ j ≤ n ∧
      rleEncodeLoop cap rd n (f + 1) off out =
        ((emitLiteral cap rd off i out).bind fun out₁ => emit cap out₁ (sectionEncode (j - i) false ++ [b]) i).bind
          (rleEncodeLoop cap rd n f j) := by
  rw [rleEncodeLoop]
  cases hfind : findRun rd (n - 1 - off) off with
  | error e =>
    obtain ⟨a, rfl⟩ := findRun_error hfind
    exact .inl ⟨a, rfl⟩
  | ok i =>
    by_cases hlast : n ≤ i + 1
    · exact .inr (.inl (if_pos hlast))
    obtain ⟨hi, hend | ⟨-, b, hb, hb'⟩⟩ := findRun_ok hfind
    · omega
    simp only [if_neg hlast, readByte_some hb]
    cases hext : extendRun rd b (n - (i + 1)) (i + 1) with
    | error e =>
      obtain ⟨a, rfl⟩ := extendRun_error hext
      exact .inl ⟨a, rfl⟩
    | ok j =>
      obtain ⟨hj, hend⟩ := extendRun_ok hext
      have hmore : j ≠ i + 1 := by
        rintro rfl
        rcases hend with hend | ⟨-, hne⟩
        · omega
        · exact hne hb'
      refine .inr (.inr ⟨i, j, b, hi, by omega, by omega, ?_⟩)
      cases emitLiteral cap rd off i out with
      | error e => rfl
      | ok out₁ =>
        simp only [Except.bind]
        cases emit cap out₁ (sectionEncode (j - i) false ++ [b]) i <;> rfl

/-! ### Results within a bound -/

/-- A result of the encoder with `cap` bytes of OUT asks for no more than `bound` bytes: it is no longer, and it is
E_OUT_FULL only when `bound` does not fit. -/
structure AsksAtMost (cap bound : Nat) (r : Except Stop (List Byte)) : Prop where
  length_le : ∀ out, r = .ok out → out.length ≤ bound
  lt_of_outFull : ∀ pos, r = .error (.err .outFull pos) → cap < bound

theorem AsksAtMost.mono {cap bound bound' : Nat} {r : Except Stop (List Byte)} (h : AsksAtMost cap bound r)
    (hle : bound ≤ bound') : AsksAtMost cap bound' r :=
  ⟨fun out hr => (h.length_le out hr).trans hle, fun pos hr => (h.lt_of_outFull pos hr).trans_le hle⟩

theorem asksAtMost_ok_iff {cap bound : Nat} {out : List Byte} : AsksAtMost cap bound (.ok out) ↔ out.length ≤ bound :=
  ⟨fun h => h.length_le out rfl, fun h => ⟨fun _ heq => Except.ok.inj heq ▸ h, nofun⟩⟩

theorem asksAtMost_uninit (cap bound a : Nat) : AsksAtMost cap bound (.error (.uninit a)) := ⟨nofun, nofun⟩

theorem asksAtMost_emit (cap : Nat) (out s : List Byte) (pos : Nat) :
    AsksAtMost cap (out.length + s.length) (emit cap out s pos) := by
  rcases Nat.lt_or_ge cap (out.length + s.length) with hfull | hroom
  · rw [emit_full hfull]
    exact ⟨nofun, fun _ _ => hfull⟩
  · rw [emit_ok hroom, asksAtMost_ok_iff, List.length_append]

/-- A step that asks for at most `a` bytes, and a rest that asks for at most `b` after it. -/
theorem AsksAtMost.bind {cap a b : Nat} {r : Except Stop (List Byte)} {k : List Byte → Except Stop (List Byte)}
    (h : AsksAtMost cap a r) (hle : a ≤ b) (hk : ∀ out : List Byte, out.length ≤ a → AsksAtMost cap b (k out)) :
    AsksAtMost cap b (r.bind k) := by
  cases r with
  | ok out => exact hk out (asksAtMost_ok_iff.mp h)
  | error e => exact ⟨nofun, (h.mono hle).lt_of_outFull⟩

/-! ### The bytes of a section -/

theorem varintLen_mono {m n : Nat} (h : m ≤ n) : varintLen m ≤ varintLen n :=
  varintLen_le_iff.mpr (Nat.lt_of_le_of_lt h (lt_pow_varintLen n))

/-- A section of at most `n` bytes has a header of at most `vlen(2n + 1)` bytes. -/
theorem sectionEncode_length_le {length n : Nat} (h : length ≤ n) (literal : Bool) :
    (sectionEncode length literal).length ≤ varintLen (2 * n + 1) := by
  rw [sectionEncode, varintEncode_length]
  apply varintLen_mono
  rw [headerValue]
  split <;> omega

/-- How many sections the literal in[off, stop) makes: none when it is empty. -/
def literalCount (off stop : Nat) : Nat := if off < stop then 1 else 0

/-- A literal asks for its bytes and its header, and for nothing when it is empty. -/
theorem asksAtMost_emitLiteral (cap : Nat) (rd : Nat → Option Byte) {n off stop : Nat} (out : List Byte)
    (hstop : stop ≤ n) :
    AsksAtMost cap (out.length + (stop - off) + varintLen (2 * n + 1) * literalCount off stop)
      (emitLiteral cap rd off stop out) := by
  rw [emitLiteral, literalCount]
  split
  · cases hslice : readSlice rd off (stop - off) with
    | error e =>
      obtain ⟨a, -, -, -, rfl⟩ := readSlice_error hslice
      exact asksAtMost_uninit _ _ a
    | ok s =>
      have hheader := sectionEncode_length_le (show stop - off ≤ n by omega) true
      have hpayload := readSlice_length hslice
      refine (asksAtMost_emit cap out _ off).mono ?_
      rw [List.length_append]
      omega
  · rw [asksAtMost_ok_iff]
    omega

/-- A run asks for its one payload byte and its header. -/
theorem asksAtMost_emit_run (cap : Nat) {n length : Nat} (out : List Byte) (b : Byte) (pos : Nat) (h : length ≤ n) :
    AsksAtMost cap (out.length + varintLen (2 * n + 1) + 1) (emit cap out (sectionEncode length false ++ [b]) pos) := by
  have hheader := sectionEncode_length_le h false
  refine (asksAtMost_emit cap out _ pos).mono ?_
  rw [List.length_append, List.length_singleton]
  omega

/-! ### The bound that a pass keeps -/

/-- The most that the sections before the cursor `off` take when every header has at most `v` bytes. They come as a run with
at most one literal before it, so there are at most 2 sections to 3 bytes, and a payload is no longer than what it stands
for. -/
def sectionsBound (v off : Nat) : Nat := off + v * (2 * off / 3)

/-- `k` sections more, over `m` bytes more. -/
theorem sectionsBound_add (v off : Nat) {m k : Nat} (h : 3 * k ≤ 2 * m) :
    sectionsBound v off + m + v * k ≤ sectionsBound v (off + m) := by
  have hcount : v * (2 * off / 3 + k) ≤ v * (2 * (off + m) / 3) := Nat.mul_le_mul_left v (by omega)
  rw [Nat.mul_add] at hcount
  simp only [sectionsBound]
  omega

/-- The formula of R102 gives ENC_BOUND(0) too. -/
theorem encBound_eq (n : Nat) : encBound n = n + varintLen (2 * n + 1) * ((2 * n + 1) / 3) := by
  rw [encBound]
  split
  case isTrue hn => simp [hn]
  case isFalse => rfl

theorem encBound_mono {m n : Nat} (h : m ≤ n) : encBound m ≤ encBound n := by
  have hlen : varintLen (2 * m + 1) ≤ varintLen (2 * n + 1) := varintLen_mono (by omega)
  rw [encBound_eq, encBound_eq]
  gcongr

theorem sectionsBound_le_encBound {off n : Nat} (h : off ≤ n) :
    sectionsBound (varintLen (2 * n + 1)) off ≤ encBound n := by
  rw [encBound_eq, sectionsBound]
  gcongr
  omega

/-- The last literal may come with no run after it, which is the one byte more in `2n + 1`. -/
theorem sectionsBound_add_literal_le {off n : Nat} (h : off ≤ n) :
    sectionsBound (varintLen (2 * n + 1)) off + (n - off) + varintLen (2 * n + 1) * literalCount off n ≤ encBound n := by
  have hcount : varintLen (2 * n + 1) * (2 * off / 3 + literalCount off n) ≤
      varintLen (2 * n + 1) * ((2 * n + 1) / 3) := by
    apply Nat.mul_le_mul_left
    rw [literalCount]
    split <;> omega
  rw [Nat.mul_add] at hcount
  rw [encBound_eq, sectionsBound]
  omega

/-- A literal and the run of two bytes or more after it keep the bound. -/
theorem sectionsBound_add_pass_le (v : Nat) {off i j : Nat} (hi : off ≤ i) (hj : i + 2 ≤ j) :
    sectionsBound v off + (i - off) + v * literalCount off i + v + 1 ≤ sectionsBound v j := by
  have hcount : 3 * (literalCount off i + 1) ≤ 2 * (j - off) := by
    rw [literalCount]
    split <;> omega
  have hadd := sectionsBound_add v off hcount
  rw [Nat.mul_add, Nat.mul_one, Nat.add_sub_cancel' (by omega)] at hadd
  omega

/-! ### The encoder -/

/-- From a cursor whose sections keep the bound, the encoder asks for at most `ENC_BOUND(n)` bytes. -/
theorem asksAtMost_rleEncodeLoop (cap : Nat) (rd : Nat → Option Byte) {n off : Nat} (f : Nat) {out : List Byte}
    (hoff : off ≤ n) (hout : out.length ≤ sectionsBound (varintLen (2 * n + 1)) off) :
    AsksAtMost cap (encBound n) (rleEncodeLoop cap rd n f off out) := by
  induction f generalizing off out with
  | zero => exact asksAtMost_ok_iff.mpr (hout.trans (sectionsBound_le_encBound hoff))
  | succ f ih =>
    rcases rleEncodeLoop_succ_cases cap rd f out hoff with ⟨a, heq⟩ | heq | ⟨i, j, b, hi, hj, hjn, heq⟩ <;> rw [heq]
    · exact asksAtMost_uninit _ _ a
    · have hbound := sectionsBound_add_literal_le hoff
      exact (asksAtMost_emitLiteral cap rd out (Nat.le_refl n)).mono (by omega)
    · have hbound := sectionsBound_add_pass_le (varintLen (2 * n + 1)) hi hj
      have hliteral := asksAtMost_emitLiteral cap rd (off := off) out (show i ≤ n by omega)
      have hpass := hliteral.bind (b := sectionsBound (varintLen (2 * n + 1)) j) (by omega) fun out₁ hout₁ =>
        (asksAtMost_emit_run cap out₁ b i (show j - i ≤ n by omega)).mono (by omega)
      exact hpass.bind (sectionsBound_le_encBound hjn) fun out₂ hout₂ => ih hjn hout₂

theorem asksAtMost_rleEncode (cap : Nat) (rd : Nat → Option Byte) (n : Nat) :
    AsksAtMost cap (encBound n) (rleEncode cap rd n) :=
  asksAtMost_rleEncodeLoop cap rd n (Nat.zero_le n) (Nat.zero_le _)

/-! ### ENCODE -/

/-- E_OUT_FULL comes from the encoder, on an input inside IN. -/
theorem encodeStreamExec_outFull {c : Params} {l : Latch} {rd : Nat → Option Byte} {pos : Nat}
    (h : encodeStreamExec c l rd = .error (.err .outFull pos)) :
    l.inLen.toNat ≤ c.inCap ∧ rleEncode c.outCap rd l.inLen.toNat = .error (.err .outFull pos) := by
  rw [encodeStreamExec, checkInLen] at h
  by_cases hlen : c.inCap < l.inLen.toNat
  · simp [hlen] at h
  · simp only [if_neg hlen] at h
    refine ⟨Nat.le_of_not_lt hlen, ?_⟩
    cases henc : rleEncode c.outCap rd l.inLen.toNat with
    | error e => simpa [henc] using h
    | ok out => simp [henc] at h

theorem statusError_inj {c d : ErrCode} : statusError c = statusError d ↔ c = d := by
  cases c <;> cases d <;> decide

theorem statusDone_ne_statusError (c : ErrCode) : statusDone ≠ statusError c := by
  cases c <;> decide

/-- An ENCODE that completes with E_OUT_FULL had an OUT smaller than `ENC_BOUND(IN_CAP)`. -/
theorem outCap_lt_encBound_of_outFull {s t : State} (h : exec .encodeStream s = .next t)
    (hfull : t.status = statusError .outFull) : s.cfg.outCap < encBound s.cfg.inCap := by
  rw [exec_eq_complete] at h
  rcases complete_next h with ⟨d, -, rfl⟩ | ⟨c, pos, hresult, rfl⟩
  · exact absurd hfull (statusDone_ne_statusError .outFull)
  · obtain rfl := statusError_inj.mp hfull
    obtain ⟨hlen, henc⟩ := encodeStreamExec_outFull hresult
    exact ((asksAtMost_rleEncode _ _ _).lt_of_outFull pos henc).trans_le (encBound_mono hlen)

/-! ### The obligation -/

/-- Settles O41: the encoder asks for at most `ENC_BOUND` of its input's length, which bounds its output and, when it is
E_OUT_FULL, OUT_CAP from above. -/
theorem encodedSizeBound : Obligations.EncodedSizeBound := by
  refine ⟨rfl, fun n _ => encBound_eq n, fun cap bs out h => ?_, fun s t hcap h hfull => ?_⟩
  · exact (asksAtMost_rleEncode cap _ bs.length).length_le out h
  · exact absurd (outCap_lt_encBound_of_outFull h hfull) (Nat.not_lt.mpr hcap)

end Sys2Proof.Machine
end

section
/-! Canonical streams (30_encoding.md R75): when a section may stand in front of one, how one starts, and the canonical
stream of a buffer, built from the buffer's last byte to its first. -/

namespace Sys2Proof.Machine

/-! ### Lists of sections -/

@[simp] theorem expandAll_nil : expandAll [] = [] := rfl

@[simp] theorem expandAll_cons (x : Section) (xs : List Section) : expandAll (x :: xs) = x.expand ++ expandAll xs := rfl

@[simp] theorem streamBytes_nil : streamBytes [] = [] := rfl

@[simp] theorem streamBytes_cons (x : Section) (xs : List Section) :
    streamBytes (x :: xs) = x.bytes ++ streamBytes xs := rfl

theorem canonicalStream_cons_iff {x : Section} {xs : List Section} :
    canonicalStream (x :: xs) = true ↔
      x.canonical = true ∧ (∀ y ∈ xs.head?, x.mayPrecede y = true) ∧ canonicalStream xs = true := by
  cases xs <;> simp [canonicalStream, and_assoc]

theorem canonical_of_mem_canonicalStream {x : Section} {xs : List Section} (hxs : canonicalStream xs = true)
    (hx : x ∈ xs) : x.canonical = true := by
  induction xs with
  | nil => cases hx
  | cons y ys ih =>
    obtain ⟨hy, -, hys⟩ := canonicalStream_cons_iff.mp hxs
    rcases List.mem_cons.mp hx with rfl | hx
    · exact hy
    · exact ih hys hx

/-! ### A literal in front -/

theorem noEqualNeighbours_append_singleton_iff {bs : List Byte} {b : Byte} :
    noEqualNeighbours (bs ++ [b]) = true ↔ noEqualNeighbours bs = true ∧ bs.getLast? ≠ some b := by
  induction bs with
  | nil => simp [noEqualNeighbours]
  | cons c cs ih =>
    cases cs with
    | nil => simp [noEqualNeighbours]
    | cons d ds => simpa [noEqualNeighbours, and_assoc] using fun _ => ih

/-- The bytes `bs` as a literal section in front of `xs`, or no section when there are none (42_rle_encoder.md R98). -/
def prependLiteral (bs : List Byte) (xs : List Section) : List Section := if bs = [] then xs else .literal bs :: xs

@[simp] theorem prependLiteral_nil (xs : List Section) : prependLiteral [] xs = xs := rfl

@[simp] theorem prependLiteral_cons (b : Byte) (bs : List Byte) (xs : List Section) :
    prependLiteral (b :: bs) xs = .literal (b :: bs) :: xs := rfl

@[simp] theorem expandAll_prependLiteral (bs : List Byte) (xs : List Section) :
    expandAll (prependLiteral bs xs) = bs ++ expandAll xs := by
  cases bs <;> rfl

/-- What a run must not be followed by is its own byte. -/
theorem head?_expandAll_ne_of_mayPrecede {length : Nat} {b : Byte} {xs : List Section} (hxs : canonicalStream xs = true)
    (hnext : ∀ y ∈ xs.head?, (Section.run length b).mayPrecede y = true) : (expandAll xs).head? ≠ some b := by
  cases xs with
  | nil => simp
  | cons x xs =>
    obtain ⟨hx, -, -⟩ := canonicalStream_cons_iff.mp hxs
    have hx' := hnext x rfl
    cases x with
    | literal bs =>
      cases bs with
      | nil => simp [Section.canonical] at hx
      | cons c cs => simpa [Section.mayPrecede, Section.expand] using hx'
    | run k c =>
      have hlen : 2 ≤ k := of_decide_eq_true hx
      obtain ⟨k, rfl⟩ := Nat.exists_eq_add_of_le' hlen
      simpa [Section.mayPrecede, Section.expand, List.replicate_succ] using Ne.symm (of_decide_eq_true hx')

/-- How a canonical stream starts, as the encoder searches it: it is one literal or nothing, or its first run stands behind
a literal or nothing. The run's byte is neither the last one before the run nor the first one behind it. -/
theorem canonicalStream_cases {xs : List Section} (hxs : canonicalStream xs = true) :
    (∃ bs, noEqualNeighbours bs = true ∧ xs = prependLiteral bs []) ∨
    ∃ bs length b ys, 2 ≤ length ∧ noEqualNeighbours (bs ++ [b]) = true ∧ (expandAll ys).head? ≠ some b ∧
      canonicalStream ys = true ∧ xs = prependLiteral bs (.run length b :: ys) := by
  have hrun : ∀ {length : Nat} {b : Byte} {ys : List Section}, canonicalStream (.run length b :: ys) = true →
      2 ≤ length ∧ (expandAll ys).head? ≠ some b ∧ canonicalStream ys = true := by
    intro length b ys h
    obtain ⟨hlen, hnext, hys⟩ := canonicalStream_cons_iff.mp h
    exact ⟨of_decide_eq_true hlen, head?_expandAll_ne_of_mayPrecede hys hnext, hys⟩
  match xs with
  | [] => exact .inl ⟨[], rfl, rfl⟩
  | .run length b :: ys =>
    obtain ⟨hlen, hhead, hys⟩ := hrun hxs
    exact .inr ⟨[], length, b, ys, hlen, rfl, hhead, hys, rfl⟩
  | .literal bs :: ys =>
    obtain ⟨hbs, hnext, hys⟩ := canonicalStream_cons_iff.mp hxs
    simp only [Section.canonical, Bool.and_eq_true, decide_eq_true_eq] at hbs
    obtain ⟨hnil, hbs⟩ := hbs
    match ys with
    | [] => exact .inl ⟨bs, hbs, by simp [prependLiteral, hnil]⟩
    | .literal cs :: ys => simp [Section.mayPrecede] at hnext
    | .run length b :: ys =>
      obtain ⟨hlen, hhead, hys⟩ := hrun hys
      have hlast : bs.getLast? ≠ some b := by simpa [Section.mayPrecede] using hnext
      exact .inr ⟨bs, length, b, ys, hlen, noEqualNeighbours_append_singleton_iff.mpr ⟨hbs, hlast⟩, hhead, hys,
        by simp [prependLiteral, hnil]⟩

/-! ### The canonical stream of a buffer -/

/-- One byte in front of a canonical stream: it makes the first run longer, makes a run with the first byte of a literal, or
belongs to a literal. -/
def consByte (b : Byte) : List Section → List Section
  | .run length c :: xs => if b = c then .run (length + 1) c :: xs else .literal [b] :: .run length c :: xs
  | .literal (c :: cs) :: xs => if b = c then .run 2 b :: prependLiteral cs xs else .literal (b :: c :: cs) :: xs
  | xs => .literal [b] :: xs

theorem expandAll_consByte (b : Byte) (xs : List Section) : expandAll (consByte b xs) = b :: expandAll xs := by
  fun_cases consByte b xs <;> simp_all [Section.expand, List.replicate_succ]

theorem run_mayPrecede_eq (m n : Nat) (b : Byte) (x : Section) :
    (Section.run m b).mayPrecede x = (Section.run n b).mayPrecede x := by
  cases x <;> rfl

theorem literal_mayPrecede_cons_cons (b c : Byte) (cs : List Byte) (x : Section) :
    (Section.literal (b :: c :: cs)).mayPrecede x = (Section.literal (c :: cs)).mayPrecede x := by
  cases x <;> rfl

theorem canonicalStream_consByte {b : Byte} {xs : List Section} (hxs : canonicalStream xs = true) :
    canonicalStream (consByte b xs) = true := by
  fun_cases consByte b xs with
  | case1 length ys =>
    obtain ⟨hlen, hnext, hys⟩ := canonicalStream_cons_iff.mp hxs
    have hlen' : 2 ≤ length := of_decide_eq_true hlen
    simp only [run_mayPrecede_eq length (length + 1)] at hnext
    exact canonicalStream_cons_iff.mpr ⟨decide_eq_true (by omega), hnext, hys⟩
  | case2 length c ys hne =>
    exact canonicalStream_cons_iff.mpr ⟨rfl, by simpa [Section.mayPrecede] using hne, hxs⟩
  | case3 cs ys =>
    obtain ⟨hlit, hnext, hys⟩ := canonicalStream_cons_iff.mp hxs
    cases cs with
    | nil =>
      have hrun : ∀ y ∈ ys.head?, (Section.run 2 b).mayPrecede y = true := fun y hy => by
        have hlast := hnext y hy
        cases y <;> simp_all [Section.mayPrecede]
      exact canonicalStream_cons_iff.mpr ⟨rfl, hrun, hys⟩
    | cons d ds =>
      simp only [Section.canonical, noEqualNeighbours, Bool.and_eq_true, decide_eq_true_eq] at hlit
      obtain ⟨-, hbd, hds⟩ := hlit
      simp only [literal_mayPrecede_cons_cons] at hnext
      exact canonicalStream_cons_iff.mpr ⟨rfl, by simpa [Section.mayPrecede] using Ne.symm hbd,
        canonicalStream_cons_iff.mpr ⟨by simpa [Section.canonical] using hds, hnext, hys⟩⟩
  | case4 c cs ys hne =>
    obtain ⟨hlit, hnext, hys⟩ := canonicalStream_cons_iff.mp hxs
    refine canonicalStream_cons_iff.mpr ⟨?_, by simpa only [literal_mayPrecede_cons_cons] using hnext, hys⟩
    simpa [Section.canonical, noEqualNeighbours, hne] using hlit
  | case5 _ hrun hlit =>
    match xs with
    | [] => rfl
    | .run length c :: ys => exact (hrun length c ys rfl).elim
    | .literal (c :: cs) :: ys => exact (hlit c cs ys rfl).elim
    | .literal [] :: ys => exact absurd (canonicalStream_cons_iff.mp hxs).1 (by decide)

/-- The sections of a buffer. -/
def sectionsOf (bs : List Byte) : List Section := bs.foldr consByte []

@[simp] theorem expandAll_sectionsOf (bs : List Byte) : expandAll (sectionsOf bs) = bs := by
  induction bs with
  | nil => rfl
  | cons b bs ih => rw [sectionsOf, List.foldr_cons, expandAll_consByte, ← sectionsOf, ih]

theorem canonicalStream_sectionsOf (bs : List Byte) : canonicalStream (sectionsOf bs) = true := by
  induction bs with
  | nil => rfl
  | cons b bs ih => exact canonicalStream_consByte ih

theorem exists_canonicalStream (bs : List Byte) : ∃ xs, canonicalStream xs = true ∧ expandAll xs = bs :=
  ⟨sectionsOf bs, canonicalStream_sectionsOf bs, expandAll_sectionsOf bs⟩

end Sys2Proof.Machine
end

section
/-! The encoder on a canonical stream (42_rle_encoder.md R96): its searches on the bytes of a literal and of a run, one pass,
and the whole loop, which emits the sections of the canonical stream one by one. -/

namespace Sys2Proof.Machine

/-! ### Bytes in place -/

/-- A command reads the bytes `bs` from address `p` on (as `Holds` says it of a memory). -/
abbrev ReadsAt (rd : Nat → Option Byte) (p : Nat) (bs : List Byte) : Prop :=
  ∀ k, k < bs.length → rd (p + k) = bs[k]?

theorem readsAt_getElem? (bs : List Byte) : ReadsAt (fun a => bs[a]?) 0 bs := fun k _ => by rw [Nat.zero_add]

theorem readsAt_append_iff {rd : Nat → Option Byte} {p : Nat} {bs cs : List Byte} :
    ReadsAt rd p (bs ++ cs) ↔ ReadsAt rd p bs ∧ ReadsAt rd (p + bs.length) cs := by
  induction bs generalizing p with
  | nil => simp [ReadsAt]
  | cons b bs ih =>
    rw [List.cons_append, ReadsAt, ReadsAt, reads_cons_iff, reads_cons_iff, and_assoc, List.length_cons,
      Nat.add_comm bs.length 1, ← Nat.add_assoc]
    exact and_congr_right fun _ => ih

/-! ### The searches -/

/-- Over bytes of which no two neighbours are equal the search for a run passes on to the last one. -/
theorem findRun_of_noEqualNeighbours {rd : Nat → Option Byte} {f p : Nat} {bs : List Byte} {b : Byte}
    (hrd : ReadsAt rd p (bs ++ [b])) (hne : noEqualNeighbours (bs ++ [b]) = true) :
    findRun rd (bs.length + f) p = findRun rd f (p + bs.length) := by
  induction bs generalizing p with
  | nil => simp
  | cons c cs ih =>
    obtain ⟨d, ds, hds⟩ : ∃ d ds, cs ++ [b] = d :: ds := List.exists_cons_of_ne_nil (by simp)
    rw [List.cons_append, hds] at hrd hne
    obtain ⟨hc, hrest⟩ := reads_cons_iff.mp hrd
    obtain ⟨hd, -⟩ := reads_cons_iff.mp hrest
    rw [noEqualNeighbours, Bool.and_eq_true, decide_eq_true_eq] at hne
    obtain ⟨hcd, hcs⟩ := hne
    rw [← hds] at hrest hcs
    rw [List.length_cons, Nat.add_right_comm, findRun, readByte_some hc, readByte_some hd]
    simp only [if_neg hcd]
    rw [ih hrest hcs, Nat.add_assoc, Nat.add_comm 1]

theorem findRun_of_equal {rd : Nat → Option Byte} {f p : Nat} {b : Byte} (hf : f ≠ 0) (hb : rd p = some b)
    (hb' : rd (p + 1) = some b) : findRun rd f p = .ok p := by
  obtain ⟨f, rfl⟩ := Nat.exists_eq_succ_of_ne_zero hf
  simp [findRun, readByte_some hb, readByte_some hb']

/-- The extension of a run takes all its copies in and stops at what stands behind them, which is another byte. -/
theorem extendRun_of_replicate {rd : Nat → Option Byte} {p length : Nat} {b : Byte} {t : List Byte}
    (hrd : ReadsAt rd p (List.replicate length b ++ t)) (ht : t.head? ≠ some b) :
    extendRun rd b (length + t.length) p = .ok (p + length) := by
  induction length generalizing p with
  | zero =>
    cases t with
    | nil => rfl
    | cons c cs =>
      obtain ⟨hc, -⟩ := reads_cons_iff.mp hrd
      have hne : c ≠ b := by simpa using ht
      simp [extendRun, readByte_some hc, hne]
  | succ length ih =>
    obtain ⟨hb, hrest⟩ := reads_cons_iff.mp (by simpa only [List.replicate_succ, List.cons_append] using hrd)
    rw [Nat.add_right_comm, extendRun, readByte_some hb]
    simp only [if_true]
    rw [ih hrest, Nat.add_assoc, Nat.add_comm 1]

/-! ### Sections one by one -/

theorem Section.bytes_run (length : Nat) (b : Byte) :
    (Section.run length b).bytes = sectionEncode length false ++ [b] := rfl

/-- The output `out`, then the bytes of each section with the position of its first input byte (42_rle_encoder.md R98). -/
def emitSections (cap : Nat) : Nat → List Section → List Byte → Except Stop (List Byte)
  | _, [], out => .ok out
  | pos, x :: xs, out => (emit cap out x.bytes pos).bind (emitSections cap (pos + x.expand.length) xs)

/-- Sections are appended when they fit in the output memory, and give no result when they do not. -/
theorem emitSections_eq_ok_iff {cap pos : Nat} {xs : List Section} {out e : List Byte} (hout : out.length ≤ cap) :
    emitSections cap pos xs out = .ok e ↔ e = out ++ streamBytes xs ∧ e.length ≤ cap := by
  induction xs generalizing pos out with
  | nil =>
    rw [emitSections, streamBytes_nil, List.append_nil, Except.ok.injEq]
    exact ⟨fun h => ⟨h.symm, h ▸ hout⟩, fun ⟨h, _⟩ => h.symm⟩
  | cons x xs ih =>
    rw [emitSections, streamBytes_cons, ← List.append_assoc]
    rcases Nat.lt_or_ge cap (out.length + x.bytes.length) with hfull | hroom
    · rw [emit_full hfull]
      refine ⟨nofun, ?_⟩
      rintro ⟨rfl, hlen⟩
      simp only [List.length_append] at hlen
      omega
    · rw [emit_ok hroom]
      exact ih (by rwa [List.length_append])

/-- Emitting a literal is emitting its section, or nothing when it is empty. -/
theorem emitLiteral_bind_emitSections {cap p : Nat} {rd : Nat → Option Byte} {bs out : List Byte} {xs : List Section}
    (hrd : ReadsAt rd p bs) :
    (emitLiteral cap rd p (p + bs.length) out).bind (emitSections cap (p + bs.length) xs) =
      emitSections cap p (prependLiteral bs xs) out := by
  cases bs with
  | nil => simp [emitLiteral, Except.bind]
  | cons b bs =>
    rw [emitLiteral, if_pos (by simp), Nat.add_sub_cancel_left, readSlice_ok hrd]
    rfl

/-! ### One pass -/

/-- The last pass: no two neighbours are equal in what is left, so it is a literal. -/
theorem rleEncodeLoop_literal {cap n f p : Nat} {rd : Nat → Option Byte} {bs out : List Byte} (hrd : ReadsAt rd p bs)
    (hbs : noEqualNeighbours bs = true) (hn : p + bs.length = n) :
    rleEncodeLoop cap rd n (f + 1) p out = emitSections cap p (prependLiteral bs []) out := by
  have hfind : ∃ i, findRun rd (n - 1 - p) p = .ok i ∧ n ≤ i + 1 := by
    rcases List.eq_nil_or_concat' bs with rfl | ⟨cs, b, rfl⟩
    · obtain rfl : p = n := hn
      exact ⟨p, by rw [Nat.sub_right_comm, Nat.sub_self, findRun], by omega⟩
    · rw [List.length_append, List.length_singleton] at hn
      refine ⟨p + cs.length, ?_, by omega⟩
      rw [show n - 1 - p = cs.length + 0 by omega, findRun_of_noEqualNeighbours hrd hbs, findRun]
  obtain ⟨i, hi, hend⟩ := hfind
  rw [rleEncodeLoop, hi, ← emitLiteral_bind_emitSections hrd, hn]
  simp only [if_pos hend]
  cases emitLiteral cap rd p n out <;> rfl

/-- A pass that finds a run: what stands before it is a literal, and the next pass starts behind it. -/
theorem rleEncodeLoop_run {cap n f p length : Nat} {rd : Nat → Option Byte} {b : Byte} {bs t out : List Byte}
    (hrd : ReadsAt rd p (bs ++ (List.replicate length b ++ t))) (hlen : 2 ≤ length)
    (hbs : noEqualNeighbours (bs ++ [b]) = true) (ht : t.head? ≠ some b)
    (hn : p + bs.length + length + t.length = n) :
    rleEncodeLoop cap rd n (f + 1) p out =
      (emitLiteral cap rd p (p + bs.length) out).bind fun out₁ =>
        (emit cap out₁ (Section.run length b).bytes (p + bs.length)).bind
          (rleEncodeLoop cap rd n f (p + bs.length + length)) := by
  obtain ⟨k, rfl⟩ := Nat.exists_eq_add_of_le' hlen
  obtain ⟨hlit, hrun⟩ := readsAt_append_iff.mp hrd
  simp only [List.replicate_succ, List.cons_append] at hrun
  obtain ⟨hb, hmore⟩ := reads_cons_iff.mp hrun
  obtain ⟨hb', -⟩ := reads_cons_iff.mp hmore
  have hfind : findRun rd (n - 1 - p) p = .ok (p + bs.length) := by
    have hlast : ReadsAt rd (p + bs.length) [b] := by simpa [ReadsAt] using hb
    rw [show n - 1 - p = bs.length + (n - 1 - p - bs.length) by omega,
      findRun_of_noEqualNeighbours (readsAt_append_iff.mpr ⟨hlit, hlast⟩) hbs, findRun_of_equal (by omega) hb hb']
  have hext : extendRun rd b (n - (p + bs.length + 1)) (p + bs.length + 1) = .ok (p + bs.length + (k + 2)) := by
    have := extendRun_of_replicate (length := k + 1) hmore ht
    rw [show n - (p + bs.length + 1) = k + 1 + t.length by omega, this]
    congr 1
    omega
  rw [rleEncodeLoop, hfind]
  simp only [if_neg (show ¬ n ≤ p + bs.length + 1 by omega), readByte_some hb, hext, Nat.add_sub_cancel_left]
  cases emitLiteral cap rd p (p + bs.length) out with
  | error e => rfl
  | ok out₁ =>
    simp only [Except.bind, Section.bytes_run]
    cases emit cap out₁ (sectionEncode (k + 2) false ++ [b]) (p + bs.length) <;> rfl

/-! ### The loop -/

/-- The encoder on a canonical stream's expansion emits that stream's sections, whatever the capacity. -/
theorem rleEncodeLoop_of_canonicalStream {cap n f p : Nat} {rd : Nat → Option Byte} {xs : List Section} {out : List Byte}
    (hxs : canonicalStream xs = true) (hrd : ReadsAt rd p (expandAll xs)) (hn : p + (expandAll xs).length = n)
    (hf : (expandAll xs).length ≤ f) : rleEncodeLoop cap rd n f p out = emitSections cap p xs out := by
  induction f generalizing p xs out with
  | zero =>
    have hnil : expandAll xs = [] := List.length_eq_zero_iff.mp (Nat.le_zero.mp hf)
    rcases canonicalStream_cases hxs with ⟨bs, -, rfl⟩ | ⟨bs, length, b, ys, hlen, -, -, -, rfl⟩
    · obtain rfl : bs = [] := by simpa using hnil
      rfl
    · simp [Section.expand, show length ≠ 0 by omega] at hnil
  | succ f ih =>
    rcases canonicalStream_cases hxs with ⟨bs, hbs, rfl⟩ | ⟨bs, length, b, ys, hlen, hbs, hhead, hys, rfl⟩
    · rw [expandAll_prependLiteral, expandAll_nil, List.append_nil] at hrd hn
      exact rleEncodeLoop_literal hrd hbs hn
    · simp only [expandAll_prependLiteral, expandAll_cons, Section.expand] at hrd
      simp only [expandAll_prependLiteral, expandAll_cons, Section.expand, List.length_append,
        List.length_replicate] at hn hf
      obtain ⟨hlit, hrest⟩ := readsAt_append_iff.mp hrd
      obtain ⟨-, hys'⟩ := readsAt_append_iff.mp hrest
      rw [List.length_replicate] at hys'
      rw [rleEncodeLoop_run hrd hlen hbs hhead (by omega), ← emitLiteral_bind_emitSections hlit]
      have hloop : rleEncodeLoop cap rd n f (p + bs.length + length) = emitSections cap (p + bs.length + length) ys :=
        funext fun out => ih hys hys' (by omega) (by omega)
      simp only [hloop, emitSections, Section.expand, List.length_replicate]

/-- RleEncode (42_rle_encoder.md R96) gives the canonical stream of its input, section by section. -/
theorem rleEncode_of_canonicalStream {cap : Nat} {rd : Nat → Option Byte} {xs : List Section}
    (hxs : canonicalStream xs = true) (hrd : ReadsAt rd 0 (expandAll xs)) :
    rleEncode cap rd (expandAll xs).length = emitSections cap 0 xs [] :=
  rleEncodeLoop_of_canonicalStream hxs hrd (Nat.zero_add _) (Nat.le_refl _)

/-- RleEncode succeeds exactly when the canonical stream of its input fits in the output memory, and that stream is its
result. -/
theorem rleEncode_eq_ok_iff {cap : Nat} {rd : Nat → Option Byte} {xs : List Section} {e : List Byte}
    (hxs : canonicalStream xs = true) (hrd : ReadsAt rd 0 (expandAll xs)) :
    rleEncode cap rd (expandAll xs).length = .ok e ↔ e = streamBytes xs ∧ e.length ≤ cap := by
  rw [rleEncode_of_canonicalStream hxs hrd, emitSections_eq_ok_iff (Nat.zero_le _), List.nil_append]

end Sys2Proof.Machine
end

section
/-! The decoder on complete sections (43_rle_decoder.md R104 to R109), canonical or not: their headers, one pass, and the
passes over a list of them. -/

namespace Sys2Proof.Machine

@[simp] theorem wireBytes_cons (x : WireSection) (xs : List WireSection) :
    wireBytes (x :: xs) = x.bytes ++ wireBytes xs := rfl

@[simp] theorem wireExpand_cons (x : WireSection) (xs : List WireSection) :
    wireExpand (x :: xs) = x.expand ++ wireExpand xs := rfl

/-! ### One section -/

theorem WireSection.valid_iff {w : Nat} {x : WireSection} :
    x.valid w = true ↔ isVarint x.header = true ∧ x.value < 2 ^ w ∧
      x.payload.length = if x.value % 2 = 1 then x.size else 1 := by
  simp [WireSection.valid, and_assoc]

/-- A value is the header value of its half and its last bit (30_encoding.md R70). -/
theorem headerValue_half_odd (v : Nat) : headerValue (v / 2) (decide (v % 2 = 1)) = v := by
  rw [headerValue]
  by_cases hodd : v % 2 = 1
  · simp only [hodd, decide_true, if_true]
    omega
  · simp only [hodd, decide_false, Bool.false_eq_true, if_false]
    omega

/-- `SectionDecode` of a header varint: its value split, and the offset past it. -/
theorem sectionDecode_of_isVarint {w len off : Nat} {rd : Nat → Option Byte} {h : List Byte} (hw : 7 ≤ w)
    (hvar : isVarint h = true) (hlt : varintValue h < 2 ^ w) (hlen : off + h.length ≤ len) (hrd : ReadsAt rd off h) :
    sectionDecode w rd len off = .ok (varintValue h / 2, decide (varintValue h % 2 = 1), off + h.length) := by
  apply sectionDecode_of_varintDecode
  rw [varintDecode_of_isVarint hw hvar hlen hrd, if_pos hlt, headerValue_half_odd]

/-- A literal's bytes, or the copies of a run's byte, are appended when they fit. -/
theorem decodePayload_of_valid {w cap n h0 p : Nat} {rd : Nat → Option Byte} {x : WireSection} {out : List Byte}
    (hx : x.valid w = true) (hn : p + x.payload.length ≤ n) (hrd : ReadsAt rd p x.payload)
    (hroom : out.length + x.expand.length ≤ cap) :
    decodePayload cap rd n h0 p x.size (decide (x.value % 2 = 1)) out =
      .ok (out ++ x.expand, p + x.payload.length) := by
  obtain ⟨-, -, hpayload⟩ := WireSection.valid_iff.mp hx
  rw [WireSection.expand] at hroom ⊢
  by_cases hodd : x.value % 2 = 1
  · rw [if_pos hodd] at hpayload hroom ⊢
    simp only [decodePayload, hodd, decide_true, if_true, ← hpayload, readSlice_ok hrd, emit_ok hroom,
      if_neg (Nat.not_lt.mpr hn)]
  · rw [if_neg hodd] at hpayload hroom ⊢
    obtain ⟨b, hb⟩ := List.length_eq_one_iff.mp hpayload
    rw [hb] at hrd hn hroom ⊢
    rw [List.flatMap_singleton] at hroom ⊢
    obtain ⟨hread, -⟩ := reads_cons_iff.mp hrd
    rw [List.length_singleton] at hn
    simp only [decodePayload, hodd, decide_false, Bool.false_eq_true, if_false, readByte_some hread, emitRepeat_eq_emit,
      emit_ok hroom, if_neg (Nat.not_lt.mpr hn), List.length_singleton]

/-- One pass over a complete section. -/
theorem rleDecodeLoop_of_valid {w cap n f off : Nat} {rd : Nat → Option Byte} {x : WireSection} {out : List Byte}
    (hw : 7 ≤ w) (hx : x.valid w = true) (hn : off + x.bytes.length ≤ n) (hrd : ReadsAt rd off x.bytes)
    (hroom : out.length + x.expand.length ≤ cap) :
    rleDecodeLoop w cap rd n (f + 1) off out = rleDecodeLoop w cap rd n f (off + x.bytes.length) (out ++ x.expand) := by
  obtain ⟨hvar, hlt, -⟩ := WireSection.valid_iff.mp hx
  have hpos : 0 < x.header.length := List.length_pos_of_ne_nil (ne_nil_of_isVarint hvar)
  obtain ⟨hheader, hpayload⟩ := readsAt_append_iff.mp hrd
  rw [WireSection.bytes, List.length_append, ← Nat.add_assoc] at hn ⊢
  have hsection := sectionDecode_of_isVarint (len := n) hw hvar hlt (by omega) hheader
  have hpass := decodePayload_of_valid (h0 := off) hx hn hpayload hroom
  rw [WireSection.size, WireSection.value] at hpass
  simp only [rleDecodeLoop, if_pos (show off < n by omega), hsection, hpass]

/-! ### A list of sections -/

/-- Complete sections whose expansion fits: one pass to each, and the loop goes on behind them. -/
theorem rleDecodeLoop_of_all_valid {w cap n f off : Nat} {rd : Nat → Option Byte} {xs : List WireSection} {out : List Byte}
    (hw : 7 ≤ w) (hxs : xs.all (WireSection.valid w) = true) (hn : off + (wireBytes xs).length ≤ n)
    (hrd : ReadsAt rd off (wireBytes xs)) (hroom : out.length + (wireExpand xs).length ≤ cap) :
    rleDecodeLoop w cap rd n (f + xs.length) off out =
      rleDecodeLoop w cap rd n f (off + (wireBytes xs).length) (out ++ wireExpand xs) := by
  induction xs generalizing off out with
  | nil => simp [wireBytes, wireExpand]
  | cons x xs ih =>
    obtain ⟨hx, hxs⟩ := Bool.and_eq_true_iff.mp (List.all_cons ▸ hxs)
    obtain ⟨hrdx, hrdxs⟩ := readsAt_append_iff.mp hrd
    simp only [wireBytes_cons, wireExpand_cons, List.length_append] at hn hroom ⊢
    rw [List.length_cons, ← Nat.add_assoc, rleDecodeLoop_of_valid hw hx (by omega) hrdx (by omega),
      ih hxs (by omega) hrdxs (by rw [List.length_append]; omega), Nat.add_assoc, List.append_assoc]

/-- Every complete section has at least its header's byte. -/
theorem length_le_wireBytes_length {w : Nat} {xs : List WireSection} (hxs : xs.all (WireSection.valid w) = true) :
    xs.length ≤ (wireBytes xs).length := by
  induction xs with
  | nil => exact Nat.zero_le _
  | cons x xs ih =>
    obtain ⟨hx, hxs⟩ := Bool.and_eq_true_iff.mp (List.all_cons ▸ hxs)
    obtain ⟨hvar, -⟩ := WireSection.valid_iff.mp hx
    have hpos : 0 < x.header.length := List.length_pos_of_ne_nil (ne_nil_of_isVarint hvar)
    have hrest := ih hxs
    simp only [wireBytes_cons, WireSection.bytes, List.length_append, List.length_cons]
    omega

/-- RleDecode (43_rle_decoder.md R104) of complete sections gives their expansion when it fits. -/
theorem rleDecode_of_all_valid {w cap : Nat} {rd : Nat → Option Byte} {xs : List WireSection} (hw : 7 ≤ w)
    (hxs : xs.all (WireSection.valid w) = true) (hrd : ReadsAt rd 0 (wireBytes xs))
    (hroom : (wireExpand xs).length ≤ cap) : rleDecode w cap rd (wireBytes xs).length = .ok (wireExpand xs) := by
  have hpasses := rleDecodeLoop_of_all_valid (n := (wireBytes xs).length) (f := (wireBytes xs).length - xs.length)
    (out := []) hw hxs (by omega) hrd (by simpa using hroom)
  rw [Nat.sub_add_cancel (length_le_wireBytes_length hxs), Nat.zero_add, List.nil_append] at hpasses
  rw [rleDecode, hpasses]
  generalize (wireBytes xs).length - xs.length = f
  cases f <;> simp [rleDecodeLoop]

/-! ### The sections of a canonical stream -/

/-- A section as ENCODE writes it, with its canonical header. -/
def Section.toWire (x : Section) : WireSection where
  header := varintEncode x.headerValue
  payload := match x with
    | .literal bytes => bytes
    | .run _ b => [b]

theorem Section.bytes_toWire (x : Section) : x.toWire.bytes = x.bytes := by
  cases x <;> rfl

theorem Section.value_toWire (x : Section) : x.toWire.value = x.headerValue := varintValue_varintEncode x.headerValue

theorem Section.expand_toWire (x : Section) : x.toWire.expand = x.expand := by
  rw [WireSection.expand, WireSection.size, Section.value_toWire]
  cases x <;> simp [Section.headerValue, Section.expand, Section.toWire]

/-- The header value 0 has no canonical varint, but no canonical section has that header. -/
theorem Section.valid_toWire {w : Nat} {x : Section} (hx : x.canonical = true) (hlt : x.headerValue < 2 ^ w) :
    x.toWire.valid w = true := by
  have hne : x.headerValue ≠ 0 := by
    cases x with
    | literal bs => exact Nat.succ_ne_zero _
    | run length b =>
      have hlen : 2 ≤ length := of_decide_eq_true hx
      rw [Section.headerValue]
      omega
  rw [WireSection.valid_iff, WireSection.size, Section.value_toWire]
  refine ⟨isVarint_varintEncode hne, hlt, ?_⟩
  cases x with
  | literal bs =>
    show bs.length = if (bs.length * 2 + 1) % 2 = 1 then (bs.length * 2 + 1) / 2 else 1
    rw [if_pos (by omega)]
    omega
  | run length b => simp [Section.headerValue, Section.toWire]

theorem wireBytes_map_toWire (xs : List Section) : wireBytes (xs.map Section.toWire) = streamBytes xs := by
  simp [wireBytes, streamBytes, List.flatMap_map, Section.bytes_toWire]

theorem wireExpand_map_toWire (xs : List Section) : wireExpand (xs.map Section.toWire) = expandAll xs := by
  simp [wireExpand, expandAll, List.flatMap_map, Section.expand_toWire]

/-- RleDecode of a canonical stream whose headers fit in `w` bits gives its expansion when that fits. -/
theorem rleDecode_of_canonicalStream {w cap : Nat} {rd : Nat → Option Byte} {xs : List Section} (hw : 7 ≤ w)
    (hxs : canonicalStream xs = true) (hlt : ∀ x ∈ xs, x.headerValue < 2 ^ w) (hrd : ReadsAt rd 0 (streamBytes xs))
    (hroom : (expandAll xs).length ≤ cap) : rleDecode w cap rd (streamBytes xs).length = .ok (expandAll xs) := by
  have hvalid : (xs.map Section.toWire).all (WireSection.valid w) = true := by
    rw [List.all_map, List.all_eq_true]
    exact fun x hx => Section.valid_toWire (canonical_of_mem_canonicalStream hxs hx) (hlt x hx)
  rw [← wireBytes_map_toWire] at hrd ⊢
  rw [← wireExpand_map_toWire] at hroom ⊢
  exact rleDecode_of_all_valid hw hvalid hrd hroom

end Sys2Proof.Machine
end

section
/-! The round trip (43_rle_decoder.md R112, R113): as functions on a buffer, and as the commands ENCODE and DECODE. -/

namespace Sys2Proof.Machine

/-! ### As functions -/

/-- Every header of a buffer that IN can hold fits in VAL_W bits (00_scope.md R9). -/
theorem headerValue_lt_of_wf {c : Params} {x : Section} {xs : List Section} (hc : c.Wf)
    (hlen : (expandAll xs).length ≤ c.inCap) (hx : x ∈ xs) : x.headerValue < 2 ^ c.valW := by
  obtain ⟨-, -, hin, hval, -⟩ := hc
  have hheader := Section.headerValue_le hx
  omega

/-- Settles O42: both functions run over the sections of the buffer, and the bytes between them are its canonical stream. -/
theorem rleRoundTrip : Obligations.RleRoundTrip := by
  refine ⟨fun w bs hw _ hlt => ?_, fun c xs hc _ hlen x hx => headerValue_lt_of_wf hc hlen hx⟩
  obtain ⟨xs, hxs, rfl⟩ := exists_canonicalStream bs
  refine ⟨streamBytes xs, fun cap hcap => ?_, fun cap hcap => ?_⟩
  · exact (rleEncode_eq_ok_iff hxs (readsAt_getElem? _)).mpr ⟨rfl, hcap⟩
  · exact rleDecode_of_canonicalStream (by omega) hxs (hlt xs hxs rfl) (readsAt_getElem? _) hcap

/-! ### As commands -/

/-- ENCODE of the expansion of a canonical stream that fits in OUT. -/
theorem exec_encodeStream_of_canonicalStream {s : State} {xs : List Section} (hxs : canonicalStream xs = true)
    (hlen : s.latch.inLen.toNat = (expandAll xs).length) (hin : (expandAll xs).length ≤ s.cfg.inCap)
    (hrd : Holds s.inMem 0 (expandAll xs)) (hroom : (streamBytes xs).length ≤ s.cfg.outCap) :
    exec .encodeStream s = .next (completeDone ⟨streamBytes xs, 0, false, 0⟩ s) := by
  have henc : rleEncode s.cfg.outCap s.inMem.read (expandAll xs).length = .ok (streamBytes xs) :=
    (rleEncode_eq_ok_iff hxs hrd).mpr ⟨rfl, hroom⟩
  simp [exec_eq_complete, commandResult, encodeStreamExec, checkInLen, hlen, Nat.not_lt.mpr hin, henc]

/-- DECODE of a canonical stream whose expansion fits in OUT. -/
theorem exec_decodeStream_of_canonicalStream {s : State} {xs : List Section} (hs : s.cfg.Wf)
    (hxs : canonicalStream xs = true) (hlt : ∀ x ∈ xs, x.headerValue < 2 ^ s.cfg.valW)
    (hlen : s.latch.inLen.toNat = (streamBytes xs).length) (hin : (streamBytes xs).length ≤ s.cfg.inCap)
    (hrd : Holds s.inMem 0 (streamBytes xs)) (hroom : (expandAll xs).length ≤ s.cfg.outCap) :
    exec .decodeStream s = .next (completeDone ⟨expandAll xs, 0, false, 0⟩ s) := by
  obtain ⟨hw, -⟩ := hs
  have hdec := rleDecode_of_canonicalStream (by omega) hxs hlt hrd hroom
  simp [exec_eq_complete, commandResult, decodeStreamExec, checkInLen, hlen, Nat.not_lt.mpr hin, hdec]

/-- OUT_LEN holds the length of every result that OUT holds, because OUT_CAP < 2^64. -/
theorem outLen_toNat_completeDone {d : Done} {s : State} (hs : s.cfg.Wf) (hlen : d.out.length ≤ s.cfg.outCap) :
    (completeDone d s).outLen.toNat = d.out.length := by
  obtain ⟨-, -, -, -, -, hcap⟩ := hs
  rw [completeDone_outLen, BitVec.toNat_ofNat, Nat.mod_eq_of_lt (by omega)]

/-- Settles O43: ENCODE leaves the canonical stream of the buffer in OUT, so DECODE of a copy of it meets complete sections
that stand for the buffer. -/
theorem encodeThenDecodeGivesTheBuffer : Obligations.EncodeThenDecodeGivesTheBuffer := by
  intro s bs e hs hlen hbs hin hout henc he
  obtain ⟨xs, hxs, rfl⟩ := exists_canonicalStream bs
  obtain ⟨rfl, hfits⟩ := (rleEncode_eq_ok_iff hxs (readsAt_getElem? _)).mp henc
  have houtLen := outLen_toNat_completeDone (d := ⟨streamBytes xs, 0, false, 0⟩) hs hfits
  refine ⟨_, exec_encodeStream_of_canonicalStream hxs hlen hin hbs hfits, rfl, houtLen, fun u hcfg hu hcopy => ?_⟩
  rw [houtLen] at hcopy
  have hcopied : Holds u.inMem 0 (streamBytes xs) := fun k hk => by simpa using hcopy k hk
  rw [completeDone_cfg] at hcfg
  rw [← hcfg] at hs hin hout he
  have hdecode := exec_decodeStream_of_canonicalStream hs hxs (fun x hx => headerValue_lt_of_wf hs hin hx)
    (by rw [hu, houtLen]) he hcopied hout
  exact ⟨_, hdecode, doneWith_completeDone _ u, outLen_toNat_completeDone hs hout⟩

end Sys2Proof.Machine
end

section
/-! The reserved command codes (60_exceptions.md R118): which command words select them, that the engine runs the command the
CMD write selected (10_state.md R34, R35), and how that command completes. -/

namespace Sys2Proof.Machine

/-! ### From the command word to the engine's step -/

/-- OP is what the mask of bits [3:0] keeps of a command word (30_encoding.md R60). -/
theorem toNat_opField (v : Word) : (opField v).toNat = (v &&& 0xF).toNat := by
  have hmask : (v &&& 0xF).toNat = v.toNat % 2 ^ 4 := Nat.and_two_pow_sub_one_eq_mod v.toNat 4
  rw [hmask, opField, BitVec.extractLsb'_toNat, Nat.shiftRight_zero]

@[simp] theorem opField_setWidth (op : BitVec 4) : opField (op.setWidth 64) = op := by
  apply BitVec.eq_of_toNat_eq
  simp only [opField, BitVec.extractLsb'_toNat, BitVec.toNat_setWidth, Nat.shiftRight_zero]
  omega

/-- The engine runs the command that the CMD write selected. -/
@[simp] theorem fetch_startCommand (v : Word) (s : State) : fetch (startCommand v s) = decode v := by
  simp [fetch, decode]

theorem engineStep_of_busy {s : State} (h : s.phase = .busy) : engineStep s = exec (fetch s) s := by
  simp [engineStep, h]

/-! ### The reserved commands -/

/-- The commands of the reserved rows of the command map (30_encoding.md R62, 60_exceptions.md R118). -/
def IsReserved (i : Instr) : Prop := i = .reserved0 ∨ i = .reserved7 ∨ ∃ op, i = .reserved8toF op

theorem decodeOp_of_gt {op : BitVec 4} (h : 7 < op.toNat) : decodeOp op = .reserved8toF op := by
  unfold decodeOp
  split
  case h_9 => rfl
  all_goals omega

theorem isReserved_decodeOp {op : BitVec 4} (h : op.toNat = 0 ∨ 7 ≤ op.toNat) : IsReserved (decodeOp op) := by
  rcases h with hzero | hge
  · obtain rfl : op = 0 := BitVec.eq_of_toNat_eq hzero
    exact .inl rfl
  · rcases hge.eq_or_lt with hseven | hgt
    · obtain rfl : op = 7 := BitVec.eq_of_toNat_eq hseven.symm
      exact .inr (.inl rfl)
    · exact .inr (.inr ⟨op, decodeOp_of_gt hgt⟩)

/-- A word with OP = 0x0 or OP from 0x7 on selects a reserved command, whatever its bits [63:4] are. -/
theorem isReserved_decode {v : Word} (h : v &&& 0xF = 0 ∨ 7 ≤ (v &&& 0xF).toNat) : IsReserved (decode v) := by
  refine isReserved_decodeOp ?_
  rw [toNat_opField]
  exact h.imp_left (congrArg BitVec.toNat)

/-- The Exec of a reserved command depends on no parameter, no operand and no IN byte. -/
theorem commandResult_of_isReserved {i : Instr} (h : IsReserved i) (c : Params) (l : Latch) (rd : Nat → Option Byte) :
    commandResult i c l rd = .error (.err .badCmd 0) := by
  obtain rfl | rfl | ⟨op, rfl⟩ := h <;> rfl

theorem exec_of_isReserved {i : Instr} (h : IsReserved i) (s : State) :
    exec i s = .next (completeError .badCmd 0 s) := by
  rw [exec_eq_complete, commandResult_of_isReserved h, complete_err]

/-! ### The obligation -/

/-- Settles O35: the Exec of a reserved command is E_BADCMD(0) in every state, and while IDLE the CMD write is
`startCommand`, after which the engine fetches the reserved command that the word selects. -/
theorem reservedCodesCompleteWithBadCommand : Obligations.ReservedCodesCompleteWithBadCommand := by
  refine ⟨fun i s hi => ⟨_, exec_of_isReserved hi s, errorWith_completeError .badCmd 0 s⟩, fun s v hidle hv => ?_⟩
  have hstart : hostOp (.wrReg 0x0 v) s = startCommand v s := hostOp_wrReg_of_idle hidle 0x0 v
  rw [hstart]
  refine ⟨startCommand_phase v s, _, ?_, errorWith_completeError .badCmd 0 _⟩
  rw [engineStep_of_busy (startCommand_phase v s), fetch_startCommand, exec_of_isReserved (isReserved_decode hv)]

end Sys2Proof.Machine
end

section
/-! The command word (30_encoding.md R60 to R63): the command map and its inverse, and what of a word decoding depends on. -/

namespace Sys2Proof.Machine

/-! ### The command map and its inverse -/

theorem encodeOp_decodeOp (op : BitVec 4) : encodeOp (decodeOp op) = op := by
  revert op
  decide

theorem wellFormed_decodeOp (op : BitVec 4) : (decodeOp op).wellFormed = true := by
  revert op
  decide

theorem decodeOp_injective : Function.Injective decodeOp := Function.LeftInverse.injective encodeOp_decodeOp

/-- The row 0x8 to 0xF is the only one whose command carries an operand, and its bit 3 keeps it out of the other rows. -/
theorem decodeOp_encodeOp {i : Instr} (hi : i.wellFormed = true) : decodeOp (encodeOp i) = i := by
  cases i with
  | reserved8toF op =>
    have hge : ∀ op : BitVec 4, op.getLsbD 3 = true → 7 < op.toNat := by decide
    exact decodeOp_of_gt (hge op hi)
  | _ => rfl

/-! ### Words -/

theorem opField_encode (i : Instr) : opField (encode i) = encodeOp i := opField_setWidth (encodeOp i)

theorem setWidth_opField (w : Word) : (opField w).setWidth 64 = w &&& 0xF := by
  apply BitVec.eq_of_toNat_eq
  rw [← toNat_opField, BitVec.toNat_setWidth]
  exact Nat.mod_eq_of_lt ((opField w).isLt.trans (by decide))

theorem opField_eq_iff {w w' : Word} : opField w = opField w' ↔ w &&& 0xF = w' &&& 0xF := by
  rw [← BitVec.toNat_inj, ← BitVec.toNat_inj (x := w &&& 0xF), toNat_opField, toNat_opField]

theorem decode_eq_iff {w w' : Word} : decode w = decode w' ↔ w &&& 0xF = w' &&& 0xF := by
  rw [← opField_eq_iff]
  exact decodeOp_injective.eq_iff

/-! ### The obligations -/

/-- Settles O1: the command map and the codes of the commands are inverse to each other, and a word decodes by its four
bits OP. -/
theorem decodeAndEncodeAgree : Obligations.DecodeAndEncodeAgree := by
  refine ⟨fun i hi => ?_, fun w => ⟨wellFormed_decodeOp _, ?_, fun w' => decode_eq_iff⟩⟩
  · rw [decode, opField_encode, decodeOp_encodeOp hi]
  · rw [decode, encode, encodeOp_decodeOp, setWidth_opField]

/-- Settles O2: each word is evaluated. -/
theorem commandMapWords : Obligations.CommandMapWords := by
  unfold Obligations.CommandMapWords
  decide

end Sys2Proof.Machine
end

section
/-! The Exec functions as chains of reads and checks: an equation for each by `Except.bind`, so that what holds of a chain is
said once for `bind`. -/

namespace Sys2Proof.Machine

/-! ### Equations in chain form -/

theorem bind_eq_ok_iff {α β : Type} {r : Except Stop α} {k : α → Except Stop β} {y : β} :
    r.bind k = .ok y ↔ ∃ x, r = .ok x ∧ k x = .ok y := by
  cases r <;> simp [Except.bind]

theorem bind_eq_error_iff {α β : Type} {r : Except Stop α} {k : α → Except Stop β} {e : Stop} :
    r.bind k = .error e ↔ r = .error e ∨ ∃ x, r = .ok x ∧ k x = .error e := by
  cases r <;> simp [Except.bind]

theorem readSlice_succ (rd : Nat → Option Byte) (a k : Nat) :
    readSlice rd a (k + 1) =
      (readByte rd a).bind fun b => (readSlice rd (a + 1) k).bind fun bs => .ok (b :: bs) := by
  rw [readSlice]
  cases readByte rd a with
  | error e => rfl
  | ok b => cases readSlice rd (a + 1) k <;> rfl

theorem varintLoop_succ_eq_bind (w : Nat) (rd : Nat → Option Byte) (off f p acc : Nat) :
    varintLoop w rd off (f + 1) p acc =
      (readByte rd p).bind fun b =>
        if 2 ^ (w - 7) ≤ acc then .error (.err .overflow off)
        else if contBit b then varintLoop w rd off f (p + 1) (acc <<< 7 ||| groupBits b)
        else .ok (acc <<< 7 ||| groupBits b, p + 1) := by
  rw [varintLoop]
  cases readByte rd p <;> rfl

theorem sectionDecode_eq_bind (w : Nat) (rd : Nat → Option Byte) (len off : Nat) :
    sectionDecode w rd len off = (varintDecode w rd len off).bind fun x => .ok (x.1 >>> 1, x.1.testBit 0, x.2) := by
  rw [sectionDecode]
  cases varintDecode w rd len off <;> rfl

theorem findRun_succ (rd : Nat → Option Byte) (f i : Nat) :
    findRun rd (f + 1) i =
      (readByte rd i).bind fun a => (readByte rd (i + 1)).bind fun b =>
        if a = b then .ok i else findRun rd f (i + 1) := by
  rw [findRun]
  cases readByte rd i with
  | error e => rfl
  | ok a => cases readByte rd (i + 1) <;> rfl

theorem extendRun_succ (rd : Nat → Option Byte) (b : Byte) (f j : Nat) :
    extendRun rd b (f + 1) j =
      (readByte rd j).bind fun c => if c = b then extendRun rd b f (j + 1) else .ok j := by
  rw [extendRun]
  cases readByte rd j <;> rfl

theorem emitLiteral_of_lt {off stop : Nat} (h : off < stop) (cap : Nat) (rd : Nat → Option Byte) (out : List Byte) :
    emitLiteral cap rd off stop out =
      (readSlice rd off (stop - off)).bind fun s => emit cap out (sectionEncode (stop - off) true ++ s) off := by
  rw [emitLiteral, if_pos h]
  cases readSlice rd off (stop - off) <;> rfl

theorem rleEncodeLoop_succ (cap : Nat) (rd : Nat → Option Byte) (n f off : Nat) (out : List Byte) :
    rleEncodeLoop cap rd n (f + 1) off out =
      (findRun rd (n - 1 - off) off).bind fun i =>
        if n ≤ i + 1 then emitLiteral cap rd off n out
        else (readByte rd i).bind fun b => (extendRun rd b (n - (i + 1)) (i + 1)).bind fun j =>
          (emitLiteral cap rd off i out).bind fun out₁ =>
            (emit cap out₁ (sectionEncode (j - i) false ++ [b]) i).bind (rleEncodeLoop cap rd n f j) := by
  rw [rleEncodeLoop]
  cases findRun rd (n - 1 - off) off with
  | error e => rfl
  | ok i =>
    simp only [Except.bind]
    split
    · rfl
    · cases readByte rd i with
      | error e => rfl
      | ok b =>
        simp only
        cases extendRun rd b (n - (i + 1)) (i + 1) with
        | error e => rfl
        | ok j =>
          simp only
          cases emitLiteral cap rd off i out with
          | error e => rfl
          | ok out₁ =>
            simp only
            cases emit cap out₁ (sectionEncode (j - i) false ++ [b]) i <;> rfl

theorem decodePayload_literal (cap : Nat) (rd : Nat → Option Byte) (n h0 p length : Nat) (out : List Byte) :
    decodePayload cap rd n h0 p length true out =
      if n < p + length then .error (.err .trunc h0)
      else (readSlice rd p length).bind fun s => (emit cap out s h0).bind fun out₁ => .ok (out₁, p + length) := by
  simp only [decodePayload, if_true]
  split
  · rfl
  · cases readSlice rd p length with
    | error e => rfl
    | ok s =>
      simp only [Except.bind]
      cases emit cap out s h0 <;> rfl

theorem decodePayload_run (cap : Nat) (rd : Nat → Option Byte) (n h0 p length : Nat) (out : List Byte) :
    decodePayload cap rd n h0 p length false out =
      if n < p + 1 then .error (.err .trunc h0)
      else (readByte rd p).bind fun b =>
        (emit cap out (List.replicate length b) h0).bind fun out₁ => .ok (out₁, p + 1) := by
  simp only [decodePayload, Bool.false_eq_true, if_false, emitRepeat_eq_emit]
  split
  · rfl
  · cases readByte rd p with
    | error e => rfl
    | ok b =>
      simp only [Except.bind]
      cases emit cap out (List.replicate length b) h0 <;> rfl

theorem rleDecodeLoop_succ_of_lt {n off : Nat} (h : off < n) (w cap : Nat) (rd : Nat → Option Byte) (f : Nat)
    (out : List Byte) :
    rleDecodeLoop w cap rd n (f + 1) off out =
      (sectionDecode w rd n off).bind fun x =>
        (decodePayload cap rd n off x.2.2 x.1 x.2.1 out).bind fun y => rleDecodeLoop w cap rd n f y.2 y.1 := by
  rw [rleDecodeLoop, if_pos h]
  cases sectionDecode w rd n off with
  | error e => rfl
  | ok x =>
    simp only [Except.bind]
    cases decodePayload cap rd n off x.2.2 x.1 x.2.1 out <;> rfl

/-! ### The commands in chain form -/

theorem decodeValueExec_eq_bind (c : Params) (l : Latch) (rd : Nat → Option Byte) :
    decodeValueExec c l rd =
      (checkInLen c l).bind fun _ => (checkOffset l).bind fun _ =>
        (varintDecode c.valW rd l.inLen.toNat l.argOffset.toNat).bind fun x => .ok ⟨[], x.1, false, x.2⟩ := by
  rw [decodeValueExec]
  cases checkInLen c l with
  | error e => rfl
  | ok _ =>
    simp only [Except.bind]
    cases checkOffset l with
    | error e => rfl
    | ok _ =>
      simp only
      cases varintDecode c.valW rd l.inLen.toNat l.argOffset.toNat <;> rfl

theorem decodeSectionExec_eq_bind (c : Params) (l : Latch) (rd : Nat → Option Byte) :
    decodeSectionExec c l rd =
      (checkInLen c l).bind fun _ => (checkOffset l).bind fun _ =>
        (sectionDecode c.valW rd l.inLen.toNat l.argOffset.toNat).bind fun x => .ok ⟨[], x.1, x.2.1, x.2.2⟩ := by
  rw [decodeSectionExec]
  cases checkInLen c l with
  | error e => rfl
  | ok _ =>
    simp only [Except.bind]
    cases checkOffset l with
    | error e => rfl
    | ok _ =>
      simp only
      cases sectionDecode c.valW rd l.inLen.toNat l.argOffset.toNat <;> rfl

theorem encodeStreamExec_eq_bind (c : Params) (l : Latch) (rd : Nat → Option Byte) :
    encodeStreamExec c l rd =
      (checkInLen c l).bind fun _ =>
        (rleEncode c.outCap rd l.inLen.toNat).bind fun out => .ok ⟨out, 0, false, 0⟩ := by
  rw [encodeStreamExec]
  cases checkInLen c l with
  | error e => rfl
  | ok _ =>
    simp only [Except.bind]
    cases rleEncode c.outCap rd l.inLen.toNat <;> rfl

theorem decodeStreamExec_eq_bind (c : Params) (l : Latch) (rd : Nat → Option Byte) :
    decodeStreamExec c l rd =
      (checkInLen c l).bind fun _ =>
        (rleDecode c.valW c.outCap rd l.inLen.toNat).bind fun out => .ok ⟨out, 0, false, 0⟩ := by
  rw [decodeStreamExec]
  cases checkInLen c l with
  | error e => rfl
  | ok _ =>
    simp only [Except.bind]
    cases rleDecode c.valW c.outCap rd l.inLen.toNat <;> rfl

end Sys2Proof.Machine
end

section
/-! Which IN bytes a command reads (the reads column of 30_encoding.md R62): its result depends on those bytes alone, and it
stops with UNINIT_READ only at one of them that has no value (10_state.md R36). -/

namespace Sys2Proof.Machine

/-! ### Functions that read only some addresses -/

/-- `F`, a function of what IN holds, reads IN only at the addresses `P`: nothing else decides its result, and where it stops
at a byte that has no value, that byte is one of them. -/
structure ReadsOnly {α : Type} (P : Nat → Prop) (F : (Nat → Option Byte) → Except Stop α) : Prop where
  congr : ∀ {rd rd' : Nat → Option Byte}, (∀ a, P a → rd a = rd' a) → F rd = F rd'
  uninit : ∀ {rd : Nat → Option Byte} {a : Nat}, F rd = .error (.uninit a) → P a ∧ rd a = none

section
variable {α β : Type} {P : Nat → Prop}

theorem ReadsOnly.const {r : Except Stop α} (h : ∀ a, r ≠ .error (.uninit a)) : ReadsOnly P fun _ => r :=
  ⟨fun _ => rfl, fun hr => absurd hr (h _)⟩

theorem ReadsOnly.ok (x : α) : ReadsOnly P fun _ => .ok x := .const nofun

theorem ReadsOnly.err (c : ErrCode) (pos : Nat) : ReadsOnly P fun _ => (.error (.err c pos) : Except Stop α) :=
  .const nofun

theorem ReadsOnly.bind {F : (Nat → Option Byte) → Except Stop α} {G : α → (Nat → Option Byte) → Except Stop β}
    (hF : ReadsOnly P F) (hG : ∀ x, ReadsOnly P (G x)) : ReadsOnly P fun rd => (F rd).bind fun x => G x rd where
  congr h := by
    rw [hF.congr h]
    exact congrArg _ (funext fun x => (hG x).congr h)
  uninit h := by
    rcases bind_eq_error_iff.mp h with h | ⟨x, -, h⟩
    · exact hF.uninit h
    · exact (hG x).uninit h

theorem readsOnly_readByte {a : Nat} (h : P a) : ReadsOnly P fun rd => readByte rd a where
  congr hrd := by rw [readByte, readByte, hrd a h]
  uninit hr := by
    obtain ⟨hnone, heq⟩ := readByte_error hr
    obtain rfl := Stop.uninit.inj heq
    exact ⟨h, hnone⟩

theorem readsOnly_emit (cap : Nat) (out s : List Byte) (pos : Nat) : ReadsOnly P fun _ => emit cap out s pos := by
  unfold emit
  split
  · exact .err _ _
  · exact .ok _

/-! ### The codec's functions -/

theorem readsOnly_readSlice {a k : Nat} (h : ∀ x, a ≤ x → x < a + k → P x) : ReadsOnly P fun rd => readSlice rd a k := by
  induction k generalizing a with
  | zero => exact .ok []
  | succ k ih =>
    simp only [readSlice_succ]
    exact (readsOnly_readByte (h a (by omega) (by omega))).bind fun b =>
      (ih fun x _ _ => h x (by omega) (by omega)).bind fun bs => .ok _

theorem readsOnly_varintLoop (w off : Nat) {f p : Nat} (acc : Nat) (h : ∀ x, p ≤ x → x < p + f → P x) :
    ReadsOnly P fun rd => varintLoop w rd off f p acc := by
  induction f generalizing p acc with
  | zero => exact .err _ _
  | succ f ih =>
    simp only [varintLoop_succ_eq_bind]
    refine (readsOnly_readByte (h p (by omega) (by omega))).bind fun b => ?_
    split
    · exact .err _ _
    · split
      · exact ih _ fun x _ _ => h x (by omega) (by omega)
      · exact .ok _

theorem readsOnly_varintDecode (w : Nat) {len off : Nat} (hoff : off ≤ len) (h : ∀ x, off ≤ x → x < len → P x) :
    ReadsOnly P fun rd => varintDecode w rd len off := by
  unfold varintDecode
  split
  · exact .ok _
  · exact readsOnly_varintLoop w off 0 fun x hlow hhigh => h x hlow (by omega)

theorem readsOnly_sectionDecode (w : Nat) {len off : Nat} (hoff : off ≤ len) (h : ∀ x, off ≤ x → x < len → P x) :
    ReadsOnly P fun rd => sectionDecode w rd len off := by
  simp only [sectionDecode_eq_bind]
  exact (readsOnly_varintDecode w hoff h).bind fun x => .ok _

/-- The payload is read only after it was found to end by `n` (43_rle_decoder.md R108). -/
theorem readsOnly_decodePayload (cap : Nat) {n : Nat} (h0 p length : Nat) (literal : Bool) (out : List Byte)
    (h : ∀ x, x < n → P x) : ReadsOnly P fun rd => decodePayload cap rd n h0 p length literal out := by
  cases literal with
  | true =>
    simp only [decodePayload_literal]
    split
    · exact .err _ _
    · exact (readsOnly_readSlice fun x _ _ => h x (by omega)).bind fun s =>
        (readsOnly_emit cap out s h0).bind fun out₁ => .ok _
  | false =>
    simp only [decodePayload_run]
    split
    · exact .err _ _
    · exact (readsOnly_readByte (h p (by omega))).bind fun b => (readsOnly_emit cap out _ h0).bind fun out₁ => .ok _

theorem readsOnly_rleDecodeLoop (w cap : Nat) {n : Nat} (f off : Nat) (out : List Byte) (h : ∀ x, x < n → P x) :
    ReadsOnly P fun rd => rleDecodeLoop w cap rd n f off out := by
  induction f generalizing off out with
  | zero => exact .ok out
  | succ f ih =>
    by_cases hoff : off < n
    · simp only [rleDecodeLoop_succ_of_lt hoff]
      exact (readsOnly_sectionDecode w hoff.le fun x _ => h x).bind fun x =>
        (readsOnly_decodePayload cap off _ _ _ out h).bind fun y => ih _ _
    · simp only [rleDecodeLoop, if_neg hoff]
      exact .ok out

/-- The search for a run reads one byte past its last place. -/
theorem readsOnly_findRun {f i : Nat} (h : ∀ x, f ≠ 0 → x ≤ i + f → P x) : ReadsOnly P fun rd => findRun rd f i := by
  induction f generalizing i with
  | zero => exact .ok i
  | succ f ih =>
    simp only [findRun_succ]
    refine (readsOnly_readByte (h i (by omega) (by omega))).bind fun a =>
      (readsOnly_readByte (h (i + 1) (by omega) (by omega))).bind fun b => ?_
    split
    · exact .ok i
    · exact ih fun x _ _ => h x (by omega) (by omega)

theorem readsOnly_extendRun (b : Byte) {f j : Nat} (h : ∀ x, x < j + f → P x) :
    ReadsOnly P fun rd => extendRun rd b f j := by
  induction f generalizing j with
  | zero => exact .ok j
  | succ f ih =>
    simp only [extendRun_succ]
    refine (readsOnly_readByte (h j (by omega))).bind fun c => ?_
    split
    · exact ih fun x _ => h x (by omega)
    · exact .ok j

theorem readsOnly_emitLiteral (cap off : Nat) {stop : Nat} (out : List Byte) (h : ∀ x, x < stop → P x) :
    ReadsOnly P fun rd => emitLiteral cap rd off stop out := by
  by_cases hlt : off < stop
  · simp only [emitLiteral_of_lt hlt]
    exact (readsOnly_readSlice fun x _ _ => h x (by omega)).bind fun s => readsOnly_emit cap out _ off
  · simp only [emitLiteral, if_neg hlt]
    exact .ok out

theorem readsOnly_rleEncodeLoop (cap : Nat) {n : Nat} (f off : Nat) (out : List Byte) (h : ∀ x, x < n → P x) :
    ReadsOnly P fun rd => rleEncodeLoop cap rd n f off out := by
  induction f generalizing off out with
  | zero => exact .ok out
  | succ f ih =>
    simp only [rleEncodeLoop_succ]
    refine (readsOnly_findRun fun x _ _ => h x (by omega)).bind fun i => ?_
    split
    · exact readsOnly_emitLiteral cap off out h
    · exact (readsOnly_readByte (h i (by omega))).bind fun b =>
        (readsOnly_extendRun b fun x _ => h x (by omega)).bind fun j =>
          (readsOnly_emitLiteral cap off out fun x _ => h x (by omega)).bind fun out₁ =>
            (readsOnly_emit cap out₁ _ i).bind fun out₂ => ih j out₂

end

/-! ### The commands -/

theorem readsOnly_checked_inLen {α : Type} {P : Nat → Prop} (c : Params) (l : Latch)
    {F : (Nat → Option Byte) → Except Stop α} (hF : l.inLen.toNat ≤ c.inCap → ReadsOnly P F) :
    ReadsOnly P fun rd => (checkInLen c l).bind fun _ => F rd := by
  unfold checkInLen
  split
  · exact .err _ _
  · exact hF (by omega)

theorem readsOnly_checked_offset {α : Type} {P : Nat → Prop} (l : Latch) {F : (Nat → Option Byte) → Except Stop α}
    (hF : l.argOffset.toNat ≤ l.inLen.toNat → ReadsOnly P F) :
    ReadsOnly P fun rd => (checkOffset l).bind fun _ => F rd := by
  unfold checkOffset
  split
  · exact .err _ _
  · exact hF (by omega)

/-- A command reads only the IN bytes it may read. -/
theorem readsOnly_commandResult (i : Instr) (s : State) : ReadsOnly (MayRead i s) (commandResult i s.cfg s.latch) := by
  cases i with
  | encodeValue =>
    show ReadsOnly _ fun _ => encodeValueExec s.cfg s.latch
    unfold encodeValueExec
    split
    · exact .err _ _
    · exact .ok _
  | encodeSection =>
    show ReadsOnly _ fun _ => encodeSectionExec s.cfg s.latch
    unfold encodeSectionExec
    split
    · exact .err _ _
    · exact .ok _
  | decodeValue =>
    show ReadsOnly _ fun rd => decodeValueExec s.cfg s.latch rd
    simp only [decodeValueExec_eq_bind]
    exact readsOnly_checked_inLen _ _ fun hin => readsOnly_checked_offset _ fun hoff =>
      (readsOnly_varintDecode _ hoff fun x hlow hhigh => ⟨hin, hlow, hhigh⟩).bind fun x => .ok _
  | decodeSection =>
    show ReadsOnly _ fun rd => decodeSectionExec s.cfg s.latch rd
    simp only [decodeSectionExec_eq_bind]
    exact readsOnly_checked_inLen _ _ fun hin => readsOnly_checked_offset _ fun hoff =>
      (readsOnly_sectionDecode _ hoff fun x hlow hhigh => ⟨hin, hlow, hhigh⟩).bind fun x => .ok _
  | encodeStream =>
    show ReadsOnly _ fun rd => encodeStreamExec s.cfg s.latch rd
    simp only [encodeStreamExec_eq_bind]
    exact readsOnly_checked_inLen _ _ fun hin =>
      (readsOnly_rleEncodeLoop _ _ 0 [] fun x hx => ⟨hin, hx⟩).bind fun out => .ok _
  | decodeStream =>
    show ReadsOnly _ fun rd => decodeStreamExec s.cfg s.latch rd
    simp only [decodeStreamExec_eq_bind]
    exact readsOnly_checked_inLen _ _ fun hin =>
      (readsOnly_rleDecodeLoop _ _ _ 0 [] fun x hx => ⟨hin, hx⟩).bind fun out => .ok _
  | reserved0 => exact .err _ _
  | reserved7 => exact .err _ _
  | reserved8toF op => exact .err _ _

theorem read_eq_of_sameOperands {i : Instr} {s s' : State} (h : SameOperands i s s') {a : Nat}
    (ha : MayRead i s a) : s.inMem.read a = s'.inMem.read a := by
  cases i with
  | decodeValue | decodeSection =>
    obtain ⟨-, -, hmem⟩ := h
    obtain ⟨-, hlow, hhigh⟩ := ha
    exact hmem a hlow hhigh
  | encodeStream | decodeStream =>
    obtain ⟨-, hmem⟩ := h
    obtain ⟨-, hhigh⟩ := ha
    exact hmem a hhigh
  | _ => exact ha.elim

/-- Of the latch a command uses only the operands it reads. -/
theorem commandResult_congr_latch {i : Instr} {s s' : State} (h : SameOperands i s s') (c : Params)
    (rd : Nat → Option Byte) : commandResult i c s.latch rd = commandResult i c s'.latch rd := by
  cases i with
  | encodeValue =>
    have hvalue : s.latch.argValue = s'.latch.argValue := h
    simp only [commandResult, encodeValueExec, hvalue]
  | encodeSection =>
    obtain ⟨hvalue, hlit⟩ := h
    simp only [commandResult, encodeSectionExec, hvalue, hlit]
  | decodeValue =>
    obtain ⟨hlen, hoff, -⟩ := h
    simp only [commandResult, decodeValueExec, checkInLen, checkOffset, hlen, hoff]
  | decodeSection =>
    obtain ⟨hlen, hoff, -⟩ := h
    simp only [commandResult, decodeSectionExec, checkInLen, checkOffset, hlen, hoff]
  | encodeStream =>
    obtain ⟨hlen, -⟩ := h
    simp only [commandResult, encodeStreamExec, checkInLen, hlen]
  | decodeStream =>
    obtain ⟨hlen, -⟩ := h
    simp only [commandResult, decodeStreamExec, checkInLen, hlen]
  | _ => rfl

theorem commandResult_eq_of_sameOperands {i : Instr} {s s' : State} (hcfg : s.cfg = s'.cfg) (h : SameOperands i s s') :
    commandResult i s.cfg s.latch s.inMem.read = commandResult i s'.cfg s'.latch s'.inMem.read := by
  rw [(readsOnly_commandResult i s).congr fun a => read_eq_of_sameOperands h, commandResult_congr_latch h, hcfg]

theorem sameResults_complete (r : Except Stop Done) (s s' : State) : SameResults (complete r s) (complete r s') := by
  cases r with
  | ok d => exact ⟨rfl, rfl, rfl, rfl, rfl, rfl, rfl⟩
  | error e =>
    cases e with
    | err c pos => exact ⟨rfl, rfl, rfl, rfl, rfl, rfl, rfl⟩
    | uninit a => rfl

/-- A command stops with UNINIT_READ only at a byte it may read that has no value. -/
theorem commandResult_uninit {i : Instr} {s : State} {a : Nat}
    (h : commandResult i s.cfg s.latch s.inMem.read = .error (.uninit a)) : MayRead i s a ∧ s.inMem.read a = none :=
  (readsOnly_commandResult i s).uninit h

/-- A completion is DONE or an error, and in either case IDLE (10_state.md R35). -/
theorem phase_and_status_of_complete {r : Except Stop Done} {s t : State} (h : complete r s = .next t) :
    t.phase = .idle ∧ (t.status = 0x002 ∨ ∃ c : ErrCode, t.status = 0x004 ||| (c.code <<< 8)) := by
  rcases complete_next h with ⟨d, -, rfl⟩ | ⟨c, pos, -, rfl⟩
  · exact ⟨rfl, .inl rfl⟩
  · exact ⟨rfl, .inr ⟨c, rfl⟩⟩

/-! ### The obligations -/

/-- Settles O23: a completion refuses only when the command stopped with UNINIT_READ. -/
theorem refusalOnlyAtAnUnwrittenByte : Obligations.RefusalOnlyAtAnUnwrittenByte := by
  intro i s
  rw [exec_eq_complete]
  refine ⟨complete_ne_fault _ s, fun r hr => ?_⟩
  obtain ⟨a, hresult, hrefusal⟩ := complete_refused hr
  exact ⟨a, hrefusal, commandResult_uninit hresult⟩

/-- Settles O22: with its input written a command does not stop with UNINIT_READ, so its completion is DONE or an error. -/
theorem everyCommandCompletesOnWrittenInput : Obligations.EveryCommandCompletesOnWrittenInput := by
  intro i s hwritten
  rw [exec_eq_complete]
  have hnext : ∃ t, complete (commandResult i s.cfg s.latch s.inMem.read) s = .next t := by
    match hresult : commandResult i s.cfg s.latch s.inMem.read with
    | .ok d => exact ⟨_, rfl⟩
    | .error (.err c pos) => exact ⟨_, rfl⟩
    | .error (.uninit a) =>
      obtain ⟨hread, hnone⟩ := commandResult_uninit hresult
      have hsome := hwritten a hread
      simp [hnone] at hsome
  obtain ⟨t, ht⟩ := hnext
  exact ⟨t, ht, phase_and_status_of_complete ht⟩

/-- Settles O24: what a command hands to the completion step is the same, and what the host sees of a completion is all from
that. -/
theorem resultDependsOnlyOnOperandsRead : Obligations.ResultDependsOnlyOnOperandsRead := by
  intro i s s' hcfg hsame
  rw [exec_eq_complete, exec_eq_complete, commandResult_eq_of_sameOperands hcfg hsame]
  exact sameResults_complete _ s s'

end Sys2Proof.Machine
end

section
/-! The bounds of a result (10_state.md R27, R35; 20_memory.md R43): on a legal chip the output of a command fits in OUT and its
value in VAL_W bits. So OUT_LEN counts the bytes of OUT that have a value. -/

namespace Sys2Proof.Machine

/-! ### The output fits -/

theorem emit_length_le {cap pos : Nat} {out s out₁ : List Byte} (h : emit cap out s pos = .ok out₁) :
    out₁.length ≤ cap := by
  rcases Nat.lt_or_ge cap (out.length + s.length) with hfull | hroom
  · simp [emit_full hfull] at h
  · rw [emit_ok hroom] at h
    obtain rfl := Except.ok.inj h
    rwa [List.length_append]

theorem emitLiteral_length_le {cap off stop : Nat} {rd : Nat → Option Byte} {out out₁ : List Byte}
    (hout : out.length ≤ cap) (h : emitLiteral cap rd off stop out = .ok out₁) : out₁.length ≤ cap := by
  by_cases hlt : off < stop
  · rw [emitLiteral_of_lt hlt, bind_eq_ok_iff] at h
    obtain ⟨s, -, h⟩ := h
    exact emit_length_le h
  · rw [emitLiteral, if_neg hlt] at h
    obtain rfl := Except.ok.inj h
    exact hout

theorem rleEncodeLoop_length_le {cap n f off : Nat} {rd : Nat → Option Byte} {out e : List Byte}
    (hout : out.length ≤ cap) (h : rleEncodeLoop cap rd n f off out = .ok e) : e.length ≤ cap := by
  induction f generalizing off out with
  | zero =>
    obtain rfl := Except.ok.inj h
    exact hout
  | succ f ih =>
    rw [rleEncodeLoop_succ, bind_eq_ok_iff] at h
    obtain ⟨i, -, h⟩ := h
    split at h
    · exact emitLiteral_length_le hout h
    · simp only [bind_eq_ok_iff] at h
      obtain ⟨b, -, j, -, out₁, -, out₂, hrun, hrest⟩ := h
      exact ih (emit_length_le hrun) hrest

theorem decodePayload_length_le {cap n h0 p length : Nat} {rd : Nat → Option Byte} {literal : Bool} {out : List Byte}
    {y : List Byte × Nat} (h : decodePayload cap rd n h0 p length literal out = .ok y) : y.1.length ≤ cap := by
  cases literal with
  | true =>
    rw [decodePayload_literal] at h
    split at h
    · cases h
    · simp only [bind_eq_ok_iff] at h
      obtain ⟨s, -, out₁, hemit, hy⟩ := h
      obtain rfl := Except.ok.inj hy
      exact emit_length_le hemit
  | false =>
    rw [decodePayload_run] at h
    split at h
    · cases h
    · simp only [bind_eq_ok_iff] at h
      obtain ⟨b, -, out₁, hemit, hy⟩ := h
      obtain rfl := Except.ok.inj hy
      exact emit_length_le hemit

theorem rleDecodeLoop_length_le {w cap n f off : Nat} {rd : Nat → Option Byte} {out e : List Byte}
    (hout : out.length ≤ cap) (h : rleDecodeLoop w cap rd n f off out = .ok e) : e.length ≤ cap := by
  induction f generalizing off out with
  | zero =>
    obtain rfl := Except.ok.inj h
    exact hout
  | succ f ih =>
    by_cases hoff : off < n
    · simp only [rleDecodeLoop_succ_of_lt hoff, bind_eq_ok_iff] at h
      obtain ⟨x, -, y, hpayload, hrest⟩ := h
      exact ih (decodePayload_length_le hpayload) hrest
    · rw [rleDecodeLoop, if_neg hoff] at h
      obtain rfl := Except.ok.inj h
      exact hout

/-- A value of `w` bits takes at most ceil(w/7) bytes. -/
theorem varintLen_le_of_lt_two_pow {w n : Nat} (h : n < 2 ^ w) : varintLen n ≤ (w + 6) / 7 := by
  have hpow : 2 ^ w ≤ 128 ^ ((w + 6) / 7) := by
    rw [show (128 : Nat) = 2 ^ 7 from rfl, ← pow_mul]
    exact Nat.pow_le_pow_right (by decide) (by omega)
  exact varintLen_le_iff.mpr (h.trans_le hpow)

/-! ### The value fits -/

theorem seven_le_valW {c : Params} (hc : c.Wf) : 7 ≤ c.valW := by
  obtain ⟨hw, -⟩ := hc
  omega

theorem varintDecode_lt {w len off v p : Nat} {rd : Nat → Option Byte} (hw : 7 ≤ w) (hoff : off ≤ len)
    (h : varintDecode w rd len off = .ok (v, p)) : v < 2 ^ w := by
  rcases hoff.eq_or_lt with rfl | hlt
  · rw [varintDecode, if_pos rfl] at h
    obtain ⟨rfl, -⟩ := Prod.mk.inj (Except.ok.inj h)
    exact Nat.two_pow_pos w
  · obtain ⟨bs, hvar, hlen, hrd, rfl, -⟩ := isVarint_of_varintDecode hlt h
    rw [varintDecode_of_isVarint hw hvar hlen hrd] at h
    by_contra hge
    simp [hge] at h

/-! ### The result of a command -/

/-- What a legal chip's completion step is given. -/
structure Done.Fits (c : Params) (d : Done) : Prop where
  out_length_le : d.out.length ≤ c.outCap
  rv_lt : d.rv < 2 ^ c.valW

theorem Done.fits_of_varintEncode {c : Params} (hc : c.Wf) {n : Nat} (hn : n < 2 ^ c.valW) :
    Done.Fits c ⟨varintEncode n, 0, false, 0⟩ := by
  obtain ⟨-, -, -, -, hcap, -⟩ := hc
  refine ⟨?_, Nat.two_pow_pos _⟩
  rw [varintEncode_length]
  exact (varintLen_le_of_lt_two_pow hn).trans hcap

theorem Done.fits_of_value {c : Params} {v : Nat} (hv : v < 2 ^ c.valW) (rl : Bool) (ro : Nat) :
    Done.Fits c ⟨[], v, rl, ro⟩ := ⟨Nat.zero_le _, hv⟩

theorem Done.fits_of_output {c : Params} {out : List Byte} (hout : out.length ≤ c.outCap) :
    Done.Fits c ⟨out, 0, false, 0⟩ := ⟨hout, Nat.two_pow_pos _⟩

theorem le_of_checkOffset {l : Latch} {u : Unit} (h : checkOffset l = .ok u) : l.argOffset.toNat ≤ l.inLen.toNat := by
  by_contra hlt
  simp [checkOffset, Nat.lt_of_not_le hlt] at h

theorem fits_of_commandResult {i : Instr} {c : Params} {l : Latch} {rd : Nat → Option Byte} {d : Done} (hc : c.Wf)
    (h : commandResult i c l rd = .ok d) : d.Fits c := by
  have hw := seven_le_valW hc
  cases i with
  | encodeValue =>
    have h : encodeValueExec c l = .ok d := h
    unfold encodeValueExec at h
    split at h
    · cases h
    · obtain rfl := Except.ok.inj h
      exact Done.fits_of_varintEncode hc (by omega)
  | encodeSection =>
    have h : encodeSectionExec c l = .ok d := h
    unfold encodeSectionExec at h
    split at h
    · cases h
    · obtain rfl := Except.ok.inj h
      exact Done.fits_of_varintEncode hc (headerValue_lt_two_pow (by omega) (by omega) _)
  | decodeValue =>
    have h : decodeValueExec c l rd = .ok d := h
    simp only [decodeValueExec_eq_bind, bind_eq_ok_iff] at h
    obtain ⟨_, -, _, hoff, x, hx, hd⟩ := h
    obtain rfl := Except.ok.inj hd
    exact Done.fits_of_value (varintDecode_lt hw (le_of_checkOffset hoff) hx) _ _
  | decodeSection =>
    have h : decodeSectionExec c l rd = .ok d := h
    simp only [decodeSectionExec_eq_bind, sectionDecode_eq_bind, bind_eq_ok_iff] at h
    obtain ⟨_, -, _, hoff, x, ⟨y, hy, hx⟩, hd⟩ := h
    obtain rfl := Except.ok.inj hx
    obtain rfl := Except.ok.inj hd
    have hhalf : y.1 >>> 1 ≤ y.1 := Nat.shiftRight_le y.1 1
    exact Done.fits_of_value (hhalf.trans_lt (varintDecode_lt hw (le_of_checkOffset hoff) hy)) _ _
  | encodeStream =>
    have h : encodeStreamExec c l rd = .ok d := h
    simp only [encodeStreamExec_eq_bind, bind_eq_ok_iff] at h
    obtain ⟨_, -, out, hout, hd⟩ := h
    obtain rfl := Except.ok.inj hd
    exact Done.fits_of_output (rleEncodeLoop_length_le (Nat.zero_le _) hout)
  | decodeStream =>
    have h : decodeStreamExec c l rd = .ok d := h
    simp only [decodeStreamExec_eq_bind, bind_eq_ok_iff] at h
    obtain ⟨_, -, out, hout, hd⟩ := h
    obtain rfl := Except.ok.inj hd
    exact Done.fits_of_output (rleDecodeLoop_length_le (Nat.zero_le _) hout)
  | _ => cases h

theorem exec_next {i : Instr} {s t : State} (h : exec i s = .next t) :
    (∃ d, (s.cfg.Wf → d.Fits s.cfg) ∧ t = completeDone d s) ∨ ∃ c pos, t = completeError c pos s := by
  rw [exec_eq_complete] at h
  rcases complete_next h with ⟨d, hd, rfl⟩ | ⟨c, pos, -, rfl⟩
  · exact .inl ⟨d, fun hs => fits_of_commandResult hs hd, rfl⟩
  · exact .inr ⟨c, pos, rfl⟩

/-! ### The obligation -/

/-- Settles O21: a completion writes only the result registers, STATUS, the phase and OUT, and OUT_LEN counts the bytes it
writes because OUT_CAP < 2^64. -/
theorem completionFrame : Obligations.CompletionFrame := by
  intro i s t h
  rcases exec_next h with ⟨d, hfits, rfl⟩ | ⟨c, pos, rfl⟩
  · refine ⟨rfl, rfl, rfl, rfl, rfl, rfl, rfl, fun _ => rfl, rfl, rfl, rfl, rfl, rfl, fun hs a => ?_⟩
    rw [outLen_toNat_completeDone hs (hfits hs).out_length_le, completeDone_outMem, Memory.read_ofBytes,
      Bool.eq_iff_iff, decide_eq_true_eq]
    simp
  · refine ⟨rfl, rfl, rfl, rfl, rfl, rfl, rfl, fun _ => rfl, rfl, rfl, rfl, rfl, rfl, fun _ a => ?_⟩
    simp

end Sys2Proof.Machine
end

section
/-! The host's accesses one by one (10_state.md sections 3 and 5, 20_memory.md section 1, 30_encoding.md section 7): register
reads by the map, register writes, the two memory windows, and WAIT. -/

namespace Sys2Proof.Machine

/-! ### Registers -/

/-- The registers in the order of their indices (10_state.md R20). -/
theorem regValue_eq_getD (i : Nat) (s : State) :
    regValue i s =
      [s.cmdOp.setWidth 64, s.status, s.inLen, s.argOffset, s.argValue, (if s.argLit then 1 else 0), s.resValue,
        (if s.resLit then 1 else 0), s.resOffset, s.outLen, s.errPos].getD i (0 : Word) := by
  rcases Nat.lt_or_ge i 0xB with hlt | hge
  · interval_cases i <;> rfl
  · exact (regValue_of_ge hge s).trans (List.getD_eq_default _ _ hge).symm

/-- The first six registers have no unspecified value in either phase. -/
theorem regValue_eq_getD_of_not_result {i : Nat} (h : i < 6 ∨ 11 ≤ i) (s : State) :
    regValue i s =
      [s.cmdOp.setWidth 64, s.status, s.inLen, s.argOffset, s.argValue, (if s.argLit then 1 else 0)].getD i
        (0 : Word) := by
  rcases h with hlt | hge
  · interval_cases i <;> rfl
  · exact (regValue_of_ge hge s).trans (List.getD_eq_default _ _ (Nat.le_trans (by decide : 6 ≤ 11) hge)).symm

theorem isResultReg_iff {i : Nat} : isResultReg i = true ↔ 6 ≤ i ∧ i ≤ 10 := by simp [isResultReg]

theorem writeReg_of_readOnly {i : Nat} (h : i ∈ [0x1, 0x6, 0x7, 0x8, 0x9, 0xA]) (v : Word) (s : State) :
    writeReg i v s = s := by
  simp only [List.mem_cons, List.not_mem_nil, or_false] at h
  rcases h with rfl | rfl | rfl | rfl | rfl | rfl <;> rfl

/-! ### A byte of a memory window -/

theorem returnMemByte_of_ge {m : Memory} {cap a : Nat} (h : cap ≤ a) (s : State) :
    returnMemByte m cap a s = returnValue 0 s := by
  rw [returnMemByte, if_neg (Nat.not_lt.mpr h)]

theorem returnMemByte_of_some {m : Memory} {cap a : Nat} {b : Byte} (h : a < cap) (hb : m.read a = some b) (s : State) :
    returnMemByte m cap a s = returnValue (b.setWidth 64) s := by
  simp [returnMemByte, h, hb]

theorem returnMemByte_of_none {m : Memory} {cap a : Nat} (h : a < cap) (hb : m.read a = none) (s : State) :
    returnMemByte m cap a s = returnFreeByte s := by
  simp [returnMemByte, h, hb]

theorem hostReadOut_of_idle {s : State} (h : s.phase = .idle) (a : Nat) :
    hostReadOut a s = returnMemByte s.outMem s.cfg.outCap a s := by
  simp [hostReadOut, h]

theorem hostReadOut_of_busy {s : State} (h : s.phase = .busy) (a : Nat) :
    hostReadOut a s = returnMemByte [] s.cfg.outCap a s := by
  simp [hostReadOut, h]

theorem hostWriteIn_of_idle {s : State} {a : Nat} (h : s.phase = .idle) (ha : a < s.cfg.inCap) (b : Byte) :
    hostWriteIn a b s = { s with inMem := s.inMem.write a b } := by
  simp [hostWriteIn, h, ha]

theorem hostWriteIn_of_busy {s : State} (h : s.phase = .busy) (a : Nat) (b : Byte) : hostWriteIn a b s = s := by
  simp [hostWriteIn, h]

theorem hostWriteIn_of_ge {s : State} {a : Nat} (ha : s.cfg.inCap ≤ a) (b : Byte) : hostWriteIn a b s = s := by
  rcases s.phase_cases with hp | hp
  · simp [hostWriteIn, hp, Nat.not_lt.mpr ha]
  · exact hostWriteIn_of_busy hp a b

/-! ### While BUSY -/

/-- While BUSY an access returns at most one value and changes nothing else. -/
theorem hostOp_of_busy {s : State} (h : s.phase = .busy) (op : HostOp) :
    ∃ (r : List Word) (d : Nat), hostOp op s = { s with returned := r ++ s.returned, draws := d } ∧ r.length ≤ 1 ∧
      s.draws ≤ d ∧ d ≤ s.draws + 1 := by
  rcases hostOp_cases op s with hread | ⟨hidle, -⟩ | ⟨hidle, -⟩
  · exact hread
  · cases h.symm.trans hidle
  · cases h.symm.trans hidle

/-! ### The obligations -/

/-- Settles O6: while BUSY no access is a write that takes effect. -/
theorem hostAccessWhileBusyOnlyReads : Obligations.HostAccessWhileBusyOnlyReads := by
  intro s op hbusy
  obtain ⟨r, d, heq, hlen, hlow, hhigh⟩ := hostOp_of_busy hbusy op
  exact ⟨d, r, heq, hlow, hhigh, hlen⟩

/-- Settles O7: the read returns the stored value, and the stored values are the map. -/
theorem registerReadsFollowTheMap : Obligations.RegisterReadsFollowTheMap := by
  intro s i hidle
  rw [hostOp_rdReg_of_idle hidle, regValue_eq_getD]
  rfl

/-- Settles O8: the result registers are the indices 6 to 10, and every other index reads as while IDLE. -/
theorem registerReadsWhileBusy : Obligations.RegisterReadsWhileBusy := by
  intro s i hbusy
  refine ⟨fun h => ?_, fun hlow hhigh => ?_⟩
  · have hnot : isResultReg i = false := Bool.eq_false_iff.mpr fun hr => by
      obtain ⟨hlow, hhigh⟩ := isResultReg_iff.mp hr
      omega
    rw [hostOp_rdReg_of_not_result hnot, regValue_eq_getD_of_not_result h]
    rfl
  · rw [hostOp_rdReg_of_busy hbusy, if_pos (isResultReg_iff.mpr ⟨hlow, hhigh⟩)]
    rfl

/-- Settles O9: while IDLE a register write is `writeReg`. -/
theorem operandRegisterWrites : Obligations.OperandRegisterWrites := by
  intro s v hidle
  simp only [hostOp_wrReg_of_idle hidle]
  exact ⟨rfl, rfl, rfl, rfl, fun i hi => writeReg_of_readOnly hi v s⟩

/-- Settles O11: each window's access tests its bound before it does anything else. -/
theorem accessOutsideAWindow : Obligations.AccessOutsideAWindow := by
  intro s a b v
  refine ⟨fun hin => ⟨returnMemByte_of_ge hin s, hostWriteIn_of_ge hin b⟩, fun hout => ⟨?_, rfl⟩, fun hreg => ?_⟩
  · rcases s.phase_cases with hp | hp
    · exact (hostReadOut_of_idle hp a).trans (returnMemByte_of_ge hout s)
    · exact (hostReadOut_of_busy hp a).trans (returnMemByte_of_ge hout s)
  · exact ⟨hostOp_rdReg_of_ge (by omega) s, hostOp_wrReg_of_ge (by omega) v s⟩

/-- Settles O12: a write in canonical form is read back at its address only. -/
theorem inWriteStoresOneByte : Obligations.InWriteStoresOneByte := by
  intro s a b ha hwf
  refine ⟨fun hbusy => hostWriteIn_of_busy hbusy a b, fun hidle => ?_⟩
  exact ⟨s.inMem.write a b, hostWriteIn_of_idle hidle ha b, Memory.wf_write hwf a b, fun x => Memory.read_write hwf a x b⟩

/-- Settles O13: inside the window a read depends on whether the byte has a value, and while BUSY no byte of OUT has one
for the host. -/
theorem memoryReadsReturnTheStoredByte : Obligations.MemoryReadsReturnTheStoredByte := by
  intro s a b
  refine ⟨fun ha hb => returnMemByte_of_some ha hb s, fun ha hb => returnMemByte_of_none ha hb s,
    fun ha hidle hb => (hostReadOut_of_idle hidle a).trans (returnMemByte_of_some ha hb s), fun ha h => ?_, rfl⟩
  show hostReadOut a s = returnFreeByte s
  rcases s.phase_cases with hp | hp
  · have hb : s.outMem.read a = none := h.resolve_left (by simp [hp])
    rw [hostReadOut_of_idle hp, returnMemByte_of_none ha hb]
  · rw [hostReadOut_of_busy hp, returnMemByte_of_none ha (Memory.read_nil a)]

/-- Settles O14: WAIT is a read of STATUS, which is no result register. -/
theorem waitRepeatsWhileBusyBitIsSet : Obligations.WaitRepeatsWhileBusyBitIsSet := by
  intro s q hq
  rw [hostStep_of_queue_cons hq]
  exact hostOp_rdReg_of_not_result (i := 0x1) rfl _

/-- Settles O25: each word is evaluated. -/
theorem errorStatusWords : Obligations.ErrorStatusWords := by
  unfold Obligations.ErrorStatusWords
  decide

end Sys2Proof.Machine
end

section
/-! What a step changes: the engine's turn and `withFetchWord` (10_state.md R17, R34, R35), reset (70_reset_and_hazards.md
R134), and who may change STATUS, the phase, IN and OUT (10_state.md R36 to R38). -/

namespace Sys2Proof.Machine

/-! ### The step at each turn -/

theorem step_of_turn {s : State} {x : Turn} {ts : List Turn} (h : s.turns = x :: ts) :
    step s = takeTurn x { s with turns := ts } := by
  simp [step, nextTurn, h]

theorem step_of_no_turn {s : State} (h : s.turns = []) : step s = takeTurn (defaultTurn s.phase) s := by
  simp [step, nextTurn, h]

theorem engineStep_of_idle {s : State} (h : s.phase = .idle) : engineStep s = .next s := by simp [engineStep, h]

/-! ### Placing a command word -/

/-- The word that `nbits` bits stand for, when they are a command word, selects the decoded command. -/
theorem decode_of_decodeTableWord {nbits w : Nat} {i : Instr} (h : decodeTableWord nbits w = some i) :
    decode (BitVec.ofNat 64 (w % 2 ^ nbits)) = i := by
  rw [decodeTableWord, decodeBits] at h
  split at h
  case h_1 j hj =>
    split at hj
    · exact (Except.ok.inj hj).trans (Option.some.inj h)
    · cases hj
  case h_2 => cases h

theorem opField_ofNat (n : Nat) : opField (BitVec.ofNat 64 n) = BitVec.ofNat 4 n := by
  apply BitVec.eq_of_toNat_eq
  simp only [opField, BitVec.extractLsb'_toNat, BitVec.toNat_ofNat, Nat.shiftRight_zero]
  omega

/-- The engine moves next and runs the word's command on the state that the CMD write leaves. -/
theorem step_placeCommand (w : Word) (s : State) : step (placeCommand w s) = exec (decode w) (startCommand w s) := by
  rw [step_of_turn (s := placeCommand w s) rfl]
  show engineStep (startCommand w s) = _
  rw [engineStep_of_busy (startCommand_phase w s), fetch_startCommand]

/-! ### Reset -/

theorem regValue_applyReset (i : Nat) (s : State) : regValue i (applyReset s) = 0 := by
  unfold regValue
  split <;> rfl

theorem applyReset_resetOf (c : Params) : applyReset (State.resetOf c) = State.resetOf c := rfl

/-! ### The host's step -/

/-- Everything the host's step can do: read, or, while IDLE and by the access at the head of the queue, start a command,
write an operand register or write a byte of IN. -/
theorem hostStep_effects (s : State) :
    (∃ q r d, hostStep s = { s with queue := q, returned := r, draws := d }) ∨
    (s.phase = .idle ∧ ∃ v rest q, s.queue = .wrReg 0x0 v :: rest ∧
      hostStep s = startCommand v { s with queue := q }) ∨
    (s.phase = .idle ∧ ∃ q a b c l,
      hostStep s = { s with queue := q, inLen := a, argOffset := b, argValue := c, argLit := l }) ∨
    (s.phase = .idle ∧ ∃ a b rest q, s.queue = .wrIn a b :: rest ∧ a < s.cfg.inCap ∧
      hostStep s = { s with queue := q, inMem := s.inMem.write a b }) := by
  rcases hostStep_cases s with ⟨-, hstep⟩ | ⟨op, rest, q, hq, hstep⟩
  · exact .inl ⟨s.queue, s.returned, s.draws, hstep⟩
  rw [hstep]
  rcases hostOp_cases op { s with queue := q } with ⟨r, d, hread, -⟩ | ⟨hidle, i, v, rfl, hwrite⟩ |
    ⟨hidle, a, b, rfl, ha, hwrite⟩
  · exact .inl ⟨q, _, d, hread⟩
  · rcases writeReg_cases i v { s with queue := q } with ⟨rfl, hstart⟩ | ⟨a, b, c, l, hregs⟩
    · exact .inr (.inl ⟨hidle, v, rest, q, hq, hwrite.trans hstart⟩)
    · exact .inr (.inr (.inl ⟨hidle, q, a, b, c, l, hwrite.trans hregs⟩))
  · exact .inr (.inr (.inr ⟨hidle, a, b, rest, q, hq, ha, hwrite⟩))

/-- The host moves at its turn, and while IDLE when no turn is left. -/
theorem head?_of_host_turn {s : State} {ts : List Turn}
    (h : s.turns = .host :: ts ∨ s.turns = [] ∧ ts = [] ∧ s.phase = .idle) :
    s.turns.head? = none ∨ s.turns.head? = some .host := by
  rcases h with h | ⟨h, -, -⟩
  · exact .inr (by rw [h]; rfl)
  · exact .inl (by rw [h]; rfl)

/-- The engine moves at its turn, and while BUSY when no turn is left. -/
theorem head?_of_engine_turn {s : State} {ts : List Turn} (h : s.turns = .engine :: ts ∨ s.turns = [] ∧ ts = []) :
    s.turns.head? = none ∨ s.turns.head? = some .engine := by
  rcases h with h | ⟨h, -⟩
  · exact .inr (by rw [h]; rfl)
  · exact .inl (by rw [h]; rfl)

/-! ### The obligations -/

/-- Settles O3: at the engine's turn, and while BUSY by default, the step is `engineStep`. -/
theorem stepRunsTheLatchedCommand : Obligations.StepRunsTheLatchedCommand := by
  rintro s ts i rfl
  refine ⟨fun hbusy ht => ?_, fun hbusy ht => ?_, fun hidle ht => ?_⟩
  · rw [step_of_turn ht]
    exact engineStep_of_busy hbusy
  · rw [step_of_no_turn ht, hbusy]
    exact engineStep_of_busy hbusy
  · rw [step_of_turn ht]
    exact engineStep_of_idle hidle

/-- Settles O4: the word placed is the one that was decoded, and its OP is its last four bits. -/
theorem stepAfterWithFetchWordRunsTheWord : Obligations.StepAfterWithFetchWordRunsTheWord := by
  intro s nbits w i h
  rw [State.withFetchWord, step_placeCommand, decode_of_decodeTableWord h, startCommand, opField_ofNat]
  rfl

/-- Settles O15: at a reset turn the step is `applyReset`. -/
theorem resetClearsEveryRegister : Obligations.ResetClearsEveryRegister := by
  intro s ts ht
  exact ⟨_, step_of_turn ht, rfl, fun i => regValue_applyReset i _, fun a => ⟨rfl, rfl⟩, rfl, rfl, rfl, rfl, rfl⟩

/-- Settles O18: of what a step can do only a CMD write, a completion and a reset write STATUS or the phase. -/
theorem statusChangesOnlyAtStartCompletionReset : Obligations.StatusChangesOnlyAtStartCompletionReset := by
  intro s t hstep hchange
  rcases step_cases hstep with ⟨ts, hts, ht⟩ | ⟨ts, -, -, ht⟩ | ⟨ts, hbusy, hts, hexec⟩ | ⟨ts, hts, ht⟩
  · obtain rfl := Host.Outcome.next.inj ht
    rcases hostStep_effects { s with turns := ts } with ⟨q, r, d, heq⟩ | ⟨hidle, v, rest, q, hq, heq⟩ |
      ⟨-, q, a, b, c, l, heq⟩ | ⟨-, a, b, rest, q, -, -, heq⟩ <;> rw [heq] at hchange ⊢
    · simp at hchange
    · exact .inl ⟨hidle, rfl, rfl, head?_of_host_turn hts, v, rest, hq⟩
    · simp at hchange
    · simp at hchange
  · obtain rfl := Host.Outcome.next.inj ht
    simp at hchange
  · rw [exec_eq_complete] at hexec
    obtain ⟨hidle, hstatus⟩ := phase_and_status_of_complete hexec.symm
    exact .inr (.inl ⟨hbusy, hidle, head?_of_engine_turn hts, hstatus⟩)
  · obtain rfl := Host.Outcome.next.inj ht
    exact .inr (.inr ⟨by rw [hts]; rfl, rfl, rfl⟩)

/-- Settles O19: of what a step can do only a write of the host to a byte of IN and a reset write IN. -/
theorem inChangesOnlyByHostWriteOrReset : Obligations.InChangesOnlyByHostWriteOrReset := by
  intro s t a hwf hstep hchange
  rcases step_cases hstep with ⟨ts, hts, ht⟩ | ⟨ts, -, -, ht⟩ | ⟨ts, -, -, hexec⟩ | ⟨ts, hts, -⟩
  · obtain rfl := Host.Outcome.next.inj ht
    rcases hostStep_effects { s with turns := ts } with ⟨q, r, d, heq⟩ | ⟨-, v, rest, q, -, heq⟩ |
      ⟨-, q, i, j, k, l, heq⟩ | ⟨hidle, x, b, rest, q, hq, hx, heq⟩ <;> rw [heq] at hchange ⊢
    · exact absurd rfl hchange
    · exact absurd rfl hchange
    · exact absurd rfl hchange
    · have hread := Memory.read_write hwf x a b
      by_cases hax : a = x
      · subst hax
        rw [if_pos rfl] at hread
        exact .inr ⟨hidle, head?_of_host_turn hts, hx, b, rest, hq, hread⟩
      · rw [if_neg hax] at hread
        exact absurd hread hchange
  · obtain rfl := Host.Outcome.next.inj ht
    exact absurd rfl hchange
  · obtain ⟨-, -, -, -, -, -, -, hmem, -⟩ := completionFrame _ _ _ hexec.symm
    exact absurd (hmem a) hchange
  · exact .inl (by rw [hts]; rfl)

/-- Settles O20: of what a step can do only a completion and a reset write OUT. -/
theorem outChangesOnlyByCompletionOrReset : Obligations.OutChangesOnlyByCompletionOrReset := by
  intro s t hstep hchange
  rcases step_cases hstep with ⟨ts, -, ht⟩ | ⟨ts, -, -, ht⟩ | ⟨ts, hbusy, hts, hexec⟩ | ⟨ts, hts, -⟩
  · obtain rfl := Host.Outcome.next.inj ht
    rcases hostStep_effects { s with turns := ts } with ⟨q, r, d, heq⟩ | ⟨-, v, rest, q, -, heq⟩ |
      ⟨-, q, i, j, k, l, heq⟩ | ⟨-, x, b, rest, q, -, -, heq⟩ <;> exact absurd (congrArg State.outMem heq) hchange
  · obtain rfl := Host.Outcome.next.inj ht
    exact absurd rfl hchange
  · rw [exec_eq_complete] at hexec
    obtain ⟨hidle, -⟩ := phase_and_status_of_complete hexec.symm
    exact .inr ⟨hbusy, hidle, head?_of_engine_turn hts⟩
  · exact .inl (by rw [hts]; rfl)

end Sys2Proof.Machine
end

section
/-! The machine invariant (`State.Inv`): what each operation needs to keep it, that reset gives it, and that every step keeps
it. -/

namespace Sys2Proof.Machine

/-! ### STATUS -/

theorem legalStatus_statusError (c : ErrCode) : legalStatus (statusError c) = true := by cases c <;> rfl

theorem busyBit_statusError (c : ErrCode) : busyBit (statusError c) = false := by cases c <;> rfl

theorem doneBit_statusError (c : ErrCode) : doneBit (statusError c) = false := by cases c <;> rfl

theorem statusError_ne_zero (c : ErrCode) : statusError c ≠ 0 := by cases c <;> decide

/-! ### Operations that keep the invariant -/

/-- The invariant says nothing of the host's side. -/
theorem State.Inv.hostSide {s : State} (h : s.Inv) (q : List HostOp) (ts : List Turn) (r : List Word) (d : Nat) :
    { s with queue := q, turns := ts, returned := r, draws := d }.Inv :=
  ⟨h.cfg_wf, h.in_sorted, h.in_window, h.out_defined, h.out_window, h.status_legal, h.busy_phase, h.res_value,
    h.error_results, h.done_pos, h.since_reset, h.latched⟩

/-- A command start latches the operand registers as they stand (10_state.md R34). -/
theorem State.Inv.startCommand {s : State} (h : s.Inv) (v : Word) : (startCommand v s).Inv where
  cfg_wf := h.cfg_wf
  in_sorted := h.in_sorted
  in_window := h.in_window
  out_defined := h.out_defined
  out_window := h.out_window
  status_legal := rfl
  busy_phase := iff_of_true (show busyBit statusBusy = true by decide) rfl
  res_value := h.res_value
  error_results hbit := absurd hbit (show ¬ errorBit statusBusy = true by decide)
  done_pos hbit := absurd hbit (show ¬ doneBit statusBusy = true by decide)
  since_reset hzero := absurd hzero (by decide : statusBusy ≠ 0)
  latched _ := rfl

/-- An operand register may hold anything while no command runs. -/
theorem State.Inv.operands {s : State} (h : s.Inv) (hidle : s.phase = .idle) (a b c : Word) (l : Bool) :
    { s with inLen := a, argOffset := b, argValue := c, argLit := l }.Inv :=
  ⟨h.cfg_wf, h.in_sorted, h.in_window, h.out_defined, h.out_window, h.status_legal, h.busy_phase, h.res_value,
    h.error_results, h.done_pos, h.since_reset, fun hbusy => by cases hidle.symm.trans hbusy⟩

theorem State.Inv.writeIn {s : State} (h : s.Inv) {a : Nat} (ha : a < s.cfg.inCap) (b : Byte) :
    { s with inMem := s.inMem.write a b }.Inv where
  cfg_wf := h.cfg_wf
  in_sorted := Memory.wf_write h.in_sorted a b
  in_window x hx := by
    rcases Memory.mem_write hx with rfl | hx
    · exact ha
    · exact h.in_window x hx
  out_defined := h.out_defined
  out_window := h.out_window
  status_legal := h.status_legal
  busy_phase := h.busy_phase
  res_value := h.res_value
  error_results := h.error_results
  done_pos := h.done_pos
  since_reset := h.since_reset
  latched := h.latched

/-- A result that fits in OUT and in VAL_W bits. -/
theorem State.Inv.completeDone {s : State} (h : s.Inv) {d : Done} (hd : d.Fits s.cfg) : (completeDone d s).Inv where
  cfg_wf := h.cfg_wf
  in_sorted := h.in_sorted
  in_window := h.in_window
  out_defined := by
    rw [outLen_toNat_completeDone h.cfg_wf hd.out_length_le]
    exact Memory.map_fst_ofBytes d.out
  out_window := by
    rw [outLen_toNat_completeDone h.cfg_wf hd.out_length_le]
    exact hd.out_length_le
  status_legal := rfl
  busy_phase := iff_of_false (show ¬ busyBit statusDone = true by decide) nofun
  res_value := by
    rw [completeDone_resValue, BitVec.toNat_ofNat]
    exact (Nat.mod_le _ _).trans_lt hd.rv_lt
  error_results hbit := absurd hbit (show ¬ errorBit statusDone = true by decide)
  done_pos _ := rfl
  since_reset hzero := absurd hzero (by decide : statusDone ≠ 0)
  latched hbusy := by cases hbusy

theorem State.Inv.completeError {s : State} (h : s.Inv) (c : ErrCode) (pos : Nat) : (completeError c pos s).Inv where
  cfg_wf := h.cfg_wf
  in_sorted := h.in_sorted
  in_window := h.in_window
  out_defined := rfl
  out_window := Nat.zero_le _
  status_legal := legalStatus_statusError c
  busy_phase := by simp [busyBit_statusError]
  res_value := Nat.two_pow_pos _
  error_results _ := ⟨rfl, rfl, rfl, rfl⟩
  done_pos hbit := by simp [doneBit_statusError] at hbit
  since_reset hzero := absurd hzero (statusError_ne_zero c)
  latched hbusy := by cases hbusy

/-- A reset gives the invariant from every state of a legal chip. -/
theorem inv_applyReset {s : State} (hs : s.cfg.Wf) : (applyReset s).Inv where
  cfg_wf := hs
  in_sorted := rfl
  in_window := nofun
  out_defined := rfl
  out_window := Nat.zero_le _
  status_legal := rfl
  busy_phase := iff_of_false (show ¬ busyBit 0 = true by decide) nofun
  res_value := Nat.two_pow_pos _
  error_results hbit := absurd hbit (show ¬ errorBit 0 = true by decide)
  done_pos _ := rfl
  since_reset _ := ⟨rfl, rfl, rfl, rfl, rfl, rfl⟩
  latched hbusy := by cases hbusy

theorem inv_resetOf {c : Params} (hc : c.Wf) : (State.resetOf c).Inv := by
  rw [← applyReset_resetOf]
  exact inv_applyReset hc

/-! ### The agents -/

theorem State.Inv.hostStep {s : State} (h : s.Inv) : (hostStep s).Inv := by
  rcases hostStep_effects s with ⟨q, r, d, heq⟩ | ⟨-, v, rest, q, -, heq⟩ | ⟨hidle, q, a, b, c, l, heq⟩ |
    ⟨-, a, b, rest, q, -, ha, heq⟩ <;> rw [heq]
  · exact h.hostSide q s.turns r d
  · exact (h.hostSide q s.turns s.returned s.draws).startCommand v
  · exact (h.hostSide q s.turns s.returned s.draws).operands hidle a b c l
  · exact (h.hostSide q s.turns s.returned s.draws).writeIn ha b

theorem State.Inv.exec {s t : State} {i : Instr} (h : s.Inv) (hexec : exec i s = .next t) : t.Inv := by
  rcases exec_next hexec with ⟨d, hfits, rfl⟩ | ⟨c, pos, rfl⟩
  · exact h.completeDone (hfits h.cfg_wf)
  · exact h.completeError c pos

/-! ### The obligations -/

/-- Settles O16: a reset gives the invariant, and the reset state is what a reset gives. -/
theorem resetStateMeetsInvariant : Obligations.ResetStateMeetsInvariant := by
  intro c hc
  refine ⟨inv_resetOf hc, fun i => ?_, rfl, inv_resetOf (by decide)⟩
  rw [← applyReset_resetOf, regValue_applyReset]

/-- Settles O17: the step takes a turn, which the invariant does not see, and then the host, the engine or the reset input
moves. -/
theorem everyStepKeepsInvariant : Obligations.EveryStepKeepsInvariant := by
  intro s t h hstep
  have hturn (ts : List Turn) : { s with turns := ts }.Inv := h.hostSide s.queue ts s.returned s.draws
  rcases step_cases hstep with ⟨ts, -, ht⟩ | ⟨ts, -, -, ht⟩ | ⟨ts, -, -, hexec⟩ | ⟨ts, -, ht⟩
  · obtain rfl := Host.Outcome.next.inj ht
    exact (hturn ts).hostStep
  · obtain rfl := Host.Outcome.next.inj ht
    exact hturn ts
  · exact (hturn ts).exec hexec.symm
  · obtain rfl := Host.Outcome.next.inj ht
    exact inv_applyReset h.cfg_wf

end Sys2Proof.Machine
end

section
/-! The commands on one varint (40_varint.md, 41_section_header.md): what ENCODE_VALUE and ENCODE_SECTION write, what DECODE_VALUE
and DECODE_SECTION return, and in which errors they end. -/

namespace Sys2Proof.Machine

/-! ### From the result of a command to its completion -/

theorem exec_doneWith {i : Instr} {s : State} {d : Done} (h : commandResult i s.cfg s.latch s.inMem.read = .ok d) :
    ∃ t, exec i s = .next t ∧ DoneWith s t d.out d.rv d.rl d.ro :=
  ⟨_, by rw [exec_eq_complete, h, complete_ok], doneWith_completeDone d s⟩

theorem exec_errorWith {i : Instr} {s : State} {c : ErrCode} {pos : Nat}
    (h : commandResult i s.cfg s.latch s.inMem.read = .error (.err c pos)) :
    ∃ t, exec i s = .next t ∧ ErrorWith s t c pos :=
  ⟨_, by rw [exec_eq_complete, h, complete_err], errorWith_completeError c pos s⟩

/-! ### The operand checks -/

theorem checkInLen_of_le {c : Params} {l : Latch} (h : l.inLen.toNat ≤ c.inCap) : checkInLen c l = .ok () := by
  rw [checkInLen, if_neg (Nat.not_lt.mpr h)]

theorem checkInLen_of_gt {c : Params} {l : Latch} (h : c.inCap < l.inLen.toNat) :
    checkInLen c l = .error (.err .arg 0) := by
  rw [checkInLen, if_pos h]

theorem checkOffset_of_le {l : Latch} (h : l.argOffset.toNat ≤ l.inLen.toNat) : checkOffset l = .ok () := by
  rw [checkOffset, if_neg (Nat.not_lt.mpr h)]

theorem checkOffset_of_gt {l : Latch} (h : l.inLen.toNat < l.argOffset.toNat) :
    checkOffset l = .error (.err .offset l.argOffset.toNat) := by
  rw [checkOffset, if_pos h]

/-- The commands that read IN test IN_LEN before anything else (60_exceptions.md R116). -/
theorem commandResult_of_inLen_gt {i : Instr} {c : Params} {l : Latch}
    (hi : i ∈ [Instr.decodeValue, .decodeSection, .encodeStream, .decodeStream]) (h : c.inCap < l.inLen.toNat)
    (rd : Nat → Option Byte) : commandResult i c l rd = .error (.err .arg 0) := by
  simp only [List.mem_cons, List.not_mem_nil, or_false] at hi
  rcases hi with rfl | rfl | rfl | rfl
  · rw [commandResult, decodeValueExec_eq_bind, checkInLen_of_gt h, Except.bind]
  · rw [commandResult, decodeSectionExec_eq_bind, checkInLen_of_gt h, Except.bind]
  · rw [commandResult, encodeStreamExec_eq_bind, checkInLen_of_gt h, Except.bind]
  · rw [commandResult, decodeStreamExec_eq_bind, checkInLen_of_gt h, Except.bind]

/-- The two commands that decode one varint end in its error (40_varint.md R85, 41_section_header.md R92). -/
theorem commandResult_of_varintDecode_error {i : Instr} {c : Params} {l : Latch} {rd : Nat → Option Byte} {e : Stop}
    (hi : i = .decodeValue ∨ i = .decodeSection) (hin : l.inLen.toNat ≤ c.inCap)
    (hoff : l.argOffset.toNat ≤ l.inLen.toNat)
    (h : varintDecode c.valW rd l.inLen.toNat l.argOffset.toNat = .error e) : commandResult i c l rd = .error e := by
  rcases hi with rfl | rfl
  · simp only [commandResult, decodeValueExec_eq_bind, checkInLen_of_le hin, checkOffset_of_le hoff, h, Except.bind]
  · simp only [commandResult, decodeSectionExec_eq_bind, sectionDecode_eq_bind, checkInLen_of_le hin,
      checkOffset_of_le hoff, h, Except.bind]

theorem commandResult_of_offset_gt {i : Instr} {c : Params} {l : Latch} {rd : Nat → Option Byte}
    (hi : i = .decodeValue ∨ i = .decodeSection) (hin : l.inLen.toNat ≤ c.inCap)
    (hoff : l.inLen.toNat < l.argOffset.toNat) :
    commandResult i c l rd = .error (.err .offset l.argOffset.toNat) := by
  rcases hi with rfl | rfl
  · simp only [commandResult, decodeValueExec_eq_bind, checkInLen_of_le hin, checkOffset_of_gt hoff, Except.bind]
  · simp only [commandResult, decodeSectionExec_eq_bind, checkInLen_of_le hin, checkOffset_of_gt hoff, Except.bind]

theorem commandResult_decodeValue {c : Params} {l : Latch} {rd : Nat → Option Byte} {v p : Nat}
    (hin : l.inLen.toNat ≤ c.inCap) (hoff : l.argOffset.toNat ≤ l.inLen.toNat)
    (h : varintDecode c.valW rd l.inLen.toNat l.argOffset.toNat = .ok (v, p)) :
    commandResult .decodeValue c l rd = .ok ⟨[], v, false, p⟩ := by
  simp only [commandResult, decodeValueExec_eq_bind, checkInLen_of_le hin, checkOffset_of_le hoff, h, Except.bind]

theorem commandResult_decodeSection {c : Params} {l : Latch} {rd : Nat → Option Byte} {length p : Nat} {literal : Bool}
    (hin : l.inLen.toNat ≤ c.inCap) (hoff : l.argOffset.toNat ≤ l.inLen.toNat)
    (h : sectionDecode c.valW rd l.inLen.toNat l.argOffset.toNat = .ok (length, literal, p)) :
    commandResult .decodeSection c l rd = .ok ⟨[], length, literal, p⟩ := by
  simp only [commandResult, decodeSectionExec_eq_bind, checkInLen_of_le hin, checkOffset_of_le hoff, h, Except.bind]

/-! ### A varint that does not end -/

/-- The loop on bytes that all have the continuation bit, up to the end of the buffer: E_TRUNC when their value still fits
in `w` bits, and else E_OVERFLOW at the byte where it does not. -/
theorem varintLoop_of_allCont {w off p acc : Nat} {rd : Nat → Option Byte} {bs : List Byte} (hw : 7 ≤ w)
    (hacc : acc < 2 ^ w) (hcont : allCont bs = true) (hrd : ReadsAt rd p bs) :
    varintLoop w rd off bs.length p acc =
      .error (.err (if acc * 128 ^ bs.length + varintValue bs < 2 ^ w then .trunc else .overflow) off) := by
  induction bs generalizing p acc with
  | nil => simp [varintLoop, varintValue, hacc]
  | cons b bs ih =>
    obtain ⟨hb, hrd'⟩ := reads_cons_iff.mp hrd
    obtain ⟨hmore, hrest⟩ := Bool.and_eq_true_iff.mp hcont
    rw [List.length_cons, varintLoop_succ hb, ← List.length_cons (a := b), accumulate_cons]
    by_cases hover : 2 ^ w ≤ acc * 128 + groupBits b
    · have hgrow : acc * 128 + groupBits b ≤ (acc * 128 + groupBits b) * 128 ^ bs.length :=
        Nat.le_mul_of_pos_right _ (Nat.pow_pos (by decide))
      rw [if_pos ((overflow_test hw b).mpr hover), if_neg (by omega)]
    · rw [if_neg (mt (overflow_test hw b).mp hover), if_pos hmore, ih (Nat.lt_of_not_le hover) hrest hrd']

theorem varintDecode_of_allCont {w len off : Nat} {rd : Nat → Option Byte} {bs : List Byte} (hw : 7 ≤ w)
    (hne : bs ≠ []) (hcont : allCont bs = true) (hlen : off + bs.length = len) (hrd : ReadsAt rd off bs) :
    varintDecode w rd len off =
      .error (.err (if varintValue bs < 2 ^ w then .trunc else .overflow) off) := by
  have hpos : 0 < bs.length := List.length_pos_of_ne_nil hne
  have hloop := varintLoop_of_allCont (off := off) hw (Nat.two_pow_pos w) hcont hrd
  rw [Nat.zero_mul, Nat.zero_add] at hloop
  rw [varintDecode, if_neg (by omega), ← hlen, Nat.add_sub_cancel_left, hloop]

/-- A varint whose value needs more than `w` bits. -/
theorem varintDecode_overflow {w len off : Nat} {rd : Nat → Option Byte} {bs : List Byte} (hw : 7 ≤ w)
    (hvar : isVarint bs = true) (hge : 2 ^ w ≤ varintValue bs) (hlen : off + bs.length ≤ len)
    (hrd : ReadsAt rd off bs) : varintDecode w rd len off = .error (.err .overflow off) := by
  rw [varintDecode_of_isVarint hw hvar hlen hrd, if_neg (Nat.not_lt.mpr hge)]

theorem varintDecode_self (w : Nat) (rd : Nat → Option Byte) (off : Nat) : varintDecode w rd off off = .ok (0, off) := by
  rw [varintDecode, if_pos rfl]

theorem sectionDecode_self (w : Nat) (rd : Nat → Option Byte) (off : Nat) :
    sectionDecode w rd off off = .ok (0, false, off) :=
  sectionDecode_of_varintDecode (length := 0) (literal := false) (varintDecode_self w rd off)

/-! ### The obligations -/

/-- Settles O26: a value that passes the check is written as `VarintEncode`, which is the canonical varint. -/
theorem encodeValueGivesTheCanonicalVarint : Obligations.EncodeValueGivesTheCanonicalVarint := by
  refine fun s => ⟨fun hlt => ?_, fun hge => exec_errorWith ?_⟩
  · obtain ⟨t, ht, hdone⟩ := exec_doneWith (i := .encodeValue) (s := s) (if_neg (Nat.not_le.mpr hlt))
    exact ⟨t, _, ht, hdone, isCanonicalVarint_varintEncode _⟩
  · exact if_pos hge

/-- Settles O28: a length that passes the check is written as the varint of its header value. -/
theorem encodeSectionGivesTheHeader : Obligations.EncodeSectionGivesTheHeader := by
  refine fun s => ⟨fun hlt => ?_, fun hge => exec_errorWith ?_⟩
  · obtain ⟨t, ht, hdone⟩ := exec_doneWith (i := .encodeSection) (s := s) (if_neg (Nat.not_le.mpr hlt))
    rw [Nat.mul_comm 2]
    exact ⟨t, _, ht, hdone, isCanonicalVarint_varintEncode _⟩
  · exact if_pos hge

/-- Settles O27: the varint decoder at the end of the buffer, and on a varint that fits. -/
theorem decodeValueGivesTheVarintsValue : Obligations.DecodeValueGivesTheVarintsValue := by
  refine fun s bs hs hin => ⟨fun hend => ?_, fun hvar hlt hrd hlen => ?_⟩
  · exact exec_doneWith (commandResult_decodeValue (p := s.latch.argOffset.toNat) hin (by rw [hend])
      (by rw [hend, varintDecode_self]))
  · refine exec_doneWith (commandResult_decodeValue hin (by omega) ?_)
    rw [varintDecode_of_isVarint (seven_le_valW hs) hvar hlen hrd, if_pos hlt]

/-- Settles O29: the header decoder at the end of the buffer, and on a varint that fits. -/
theorem decodeSectionSplitsTheHeader : Obligations.DecodeSectionSplitsTheHeader := by
  refine fun s bs hs hin => ⟨fun hend => ?_, fun hvar hlt hrd hlen => ?_⟩
  · exact exec_doneWith (commandResult_decodeSection (p := s.latch.argOffset.toNat) hin (by rw [hend])
      (by rw [hend, sectionDecode_self]))
  · exact exec_doneWith (commandResult_decodeSection hin (by omega)
      (sectionDecode_of_isVarint (seven_le_valW hs) hvar hlt hlen hrd))

/-- Settles O30: the two operand checks in their order, then the error of the varint decoder, which both commands hand on. -/
theorem varintDecodeErrors : Obligations.VarintDecodeErrors := by
  intro i s bs hi hs
  have hw := seven_le_valW hs
  refine ⟨fun hgt => exec_errorWith (commandResult_of_inLen_gt ?_ hgt _), fun hin => ⟨fun hoff => ?_,
    fun hvar hge hrd hlen => ?_, fun hne hcont hrd hlen => ?_⟩⟩
  · rcases hi with rfl | rfl <;> simp
  · exact exec_errorWith (commandResult_of_offset_gt hi hin hoff)
  · exact exec_errorWith (commandResult_of_varintDecode_error hi hin (by omega)
      (varintDecode_overflow hw hvar hge hlen hrd))
  · exact exec_errorWith (commandResult_of_varintDecode_error hi hin (by omega)
      (varintDecode_of_allCont hw hne hcont hlen hrd))

end Sys2Proof.Machine
end

section
/-! ENCODE (42_rle_encoder.md R96 to R101): the canonical stream of a buffer is the only one, and the command writes it or ends
in E_OUT_FULL at the first section that does not fit. -/

namespace Sys2Proof.Machine

/-! ### The canonical stream is the only one -/

/-- A byte in front of a canonical stream that does not start with it begins a literal, which takes in the literal that
stood there. -/
theorem consByte_of_head?_ne {b : Byte} {xs : List Section} (hxs : canonicalStream xs = true)
    (hhead : (expandAll xs).head? ≠ some b) :
    ∃ cs ys, consByte b xs = .literal (b :: cs) :: ys ∧ prependLiteral cs ys = xs := by
  match xs with
  | [] => exact ⟨[], [], rfl, rfl⟩
  | .run length c :: ys =>
    obtain ⟨hlen, -, -⟩ := canonicalStream_cons_iff.mp hxs
    obtain ⟨k, rfl⟩ := Nat.exists_eq_add_of_le' (show 2 ≤ length from of_decide_eq_true hlen)
    have hne : b ≠ c := by simpa [Section.expand, List.replicate_succ, eq_comm] using hhead
    exact ⟨[], .run (k + 2) c :: ys, by rw [consByte, if_neg hne], rfl⟩
  | .literal [] :: ys => exact absurd (canonicalStream_cons_iff.mp hxs).1 (by decide)
  | .literal (c :: cs) :: ys =>
    have hne : b ≠ c := by simpa [Section.expand, eq_comm] using hhead
    exact ⟨c :: cs, ys, by rw [consByte, if_neg hne], rfl⟩

theorem consByte_consByte {b : Byte} {xs : List Section} (hxs : canonicalStream xs = true)
    (hhead : (expandAll xs).head? ≠ some b) : consByte b (consByte b xs) = .run 2 b :: xs := by
  obtain ⟨cs, ys, heq, rfl⟩ := consByte_of_head?_ne hxs hhead
  rw [heq, consByte, if_pos rfl]

/-- The copies of a run's byte, one by one, are the run. -/
theorem foldr_consByte_replicate {b : Byte} {xs : List Section} (hxs : canonicalStream xs = true)
    (hhead : (expandAll xs).head? ≠ some b) (k : Nat) :
    (List.replicate (k + 2) b).foldr consByte xs = .run (k + 2) b :: xs := by
  induction k with
  | zero => exact consByte_consByte hxs hhead
  | succ k ih => rw [List.replicate_succ, List.foldr_cons, ih, consByte, if_pos rfl]

/-- The bytes of a literal, one by one, are the literal. -/
theorem foldr_consByte_literal {b : Byte} {bs : List Byte} {xs : List Section}
    (h : canonicalStream (.literal (b :: bs) :: xs) = true) :
    (b :: bs).foldr consByte xs = .literal (b :: bs) :: xs := by
  induction bs generalizing b with
  | nil =>
    obtain ⟨-, hnext, -⟩ := canonicalStream_cons_iff.mp h
    match xs with
    | [] => rfl
    | .literal cs :: ys => exact absurd (hnext _ rfl) (by simp [Section.mayPrecede])
    | .run length c :: ys =>
      have hne : b ≠ c := by simpa [Section.mayPrecede] using hnext
      rw [List.foldr_cons, List.foldr_nil, consByte, if_neg hne]
  | cons c cs ih =>
    obtain ⟨hlit, hnext, hxs⟩ := canonicalStream_cons_iff.mp h
    simp only [Section.canonical, noEqualNeighbours, Bool.and_eq_true, decide_eq_true_eq] at hlit
    obtain ⟨-, hne, hcs⟩ := hlit
    simp only [literal_mayPrecede_cons_cons] at hnext
    have htail : canonicalStream (.literal (c :: cs) :: xs) = true :=
      canonicalStream_cons_iff.mpr ⟨by simpa [Section.canonical] using hcs, hnext, hxs⟩
    rw [List.foldr_cons, ih htail, consByte, if_neg hne]

/-- The sections of a buffer are the canonical stream that expands to it. -/
theorem sectionsOf_expandAll {xs : List Section} (hxs : canonicalStream xs = true) : sectionsOf (expandAll xs) = xs := by
  induction xs with
  | nil => rfl
  | cons x xs ih =>
    obtain ⟨hx, hnext, hrest⟩ := canonicalStream_cons_iff.mp hxs
    rw [expandAll_cons, sectionsOf, List.foldr_append, ← sectionsOf, ih hrest]
    match x with
    | .run length b =>
      obtain ⟨k, rfl⟩ := Nat.exists_eq_add_of_le' (show 2 ≤ length from of_decide_eq_true hx)
      exact foldr_consByte_replicate hrest (head?_expandAll_ne_of_mayPrecede hrest hnext) k
    | .literal [] => exact absurd hx (by decide)
    | .literal (b :: bs) => exact foldr_consByte_literal hxs

/-! ### The first section that does not fit -/

/-- Sections that fit are appended, and the first that does not is E_OUT_FULL at its first input byte (42_rle_encoder.md
R98). -/
theorem emitSections_eq_outFull {cap pos : Nat} {pre post : List Section} {x : Section} {out : List Byte}
    (hpre : out.length + (streamBytes pre).length ≤ cap)
    (hx : cap < out.length + (streamBytes pre).length + x.bytes.length) :
    emitSections cap pos (pre ++ x :: post) out = .error (.err .outFull (pos + (expandAll pre).length)) := by
  induction pre generalizing pos out with
  | nil =>
    have hfull : cap < out.length + x.bytes.length := hx
    rw [List.nil_append, emitSections, emit_full hfull]
    rfl
  | cons y ys ih =>
    rw [streamBytes_cons, List.length_append] at hpre hx
    have hroom : out.length + y.bytes.length ≤ cap := by omega
    rw [List.cons_append, emitSections, emit_ok hroom, Except.bind, ih (by rw [List.length_append]; omega)
      (by rw [List.length_append]; omega), expandAll_cons, List.length_append, Nat.add_assoc]

theorem streamBytes_append_singleton (pre : List Section) (x : Section) :
    streamBytes (pre ++ [x]) = streamBytes pre ++ x.bytes := by
  simp [streamBytes]

/-! ### The command -/

theorem commandResult_encodeStream {c : Params} {l : Latch} (hin : l.inLen.toNat ≤ c.inCap) (rd : Nat → Option Byte) :
    commandResult .encodeStream c l rd =
      (rleEncode c.outCap rd l.inLen.toNat).bind fun out => .ok ⟨out, 0, false, 0⟩ := by
  rw [commandResult, encodeStreamExec_eq_bind, checkInLen_of_le hin, Except.bind]

/-! ### The obligations -/

/-- Settles O31: the sections of the buffer, built from its last byte to its first, are a canonical stream, and every
canonical stream is the sections of its expansion. -/
theorem everyBufferHasOneCanonicalStream : Obligations.EveryBufferHasOneCanonicalStream := by
  refine fun bs => ⟨sectionsOf bs, canonicalStream_sectionsOf bs, expandAll_sectionsOf bs, ?_⟩
  rintro ys hys rfl
  exact (sectionsOf_expandAll hys).symm

/-- Settles O32: the encoder emits the sections of the canonical stream one by one. -/
theorem encodeGivesTheCanonicalStream : Obligations.EncodeGivesTheCanonicalStream := by
  refine fun s => ⟨fun xs hxs hlen hin hrd => ⟨fun hroom => ?_, fun pre x post heq hpre hx => ?_⟩, fun hgt => ?_⟩
  · exact ⟨_, exec_encodeStream_of_canonicalStream hxs hlen.symm (hlen ▸ hin) hrd hroom, doneWith_completeDone _ s⟩
  · rw [streamBytes_append_singleton, List.length_append] at hx
    have hfull : rleEncode s.cfg.outCap s.inMem.read s.latch.inLen.toNat =
        .error (.err .outFull (expandAll pre).length) := by
      rw [← hlen, rleEncode_of_canonicalStream hxs hrd, heq, emitSections_eq_outFull (by simpa using hpre)
        (by simpa using hx), Nat.zero_add]
    exact exec_errorWith (by rw [commandResult_encodeStream hin, hfull, Except.bind])
  · exact exec_errorWith (commandResult_of_inLen_gt (by simp) hgt _)

end Sys2Proof.Machine
end

section
/-! DECODE (43_rle_decoder.md R104 to R111): the command writes the expansion of complete sections, or ends in the error of the
first section that fails, at that section's header. -/

namespace Sys2Proof.Machine

/-! ### One failing pass -/

/-- A header that does not decode ends the loop in the header's error. -/
theorem rleDecodeLoop_of_header_error {w cap n f off : Nat} {rd : Nat → Option Byte} {out : List Byte} {e : Stop}
    (hoff : off < n) (h : varintDecode w rd n off = .error e) :
    rleDecodeLoop w cap rd n (f + 1) off out = .error e := by
  rw [rleDecodeLoop_succ_of_lt hoff, sectionDecode_eq_bind, h]
  rfl

theorem rleDecodeLoop_of_payload_error {w cap n f off length p : Nat} {literal : Bool} {rd : Nat → Option Byte}
    {out : List Byte} {e : Stop} (hoff : off < n) (hheader : sectionDecode w rd n off = .ok (length, literal, p))
    (h : decodePayload cap rd n off p length literal out = .error e) :
    rleDecodeLoop w cap rd n (f + 1) off out = .error e := by
  rw [rleDecodeLoop_succ_of_lt hoff, hheader, Except.bind, h]
  rfl

/-- A payload that would end past `n` is not read (43_rle_decoder.md R108). -/
theorem decodePayload_trunc {cap n h0 p length : Nat} {literal : Bool} {rd : Nat → Option Byte} {out : List Byte}
    (h : n < p + if literal = true then length else 1) :
    decodePayload cap rd n h0 p length literal out = .error (.err .trunc h0) := by
  cases literal with
  | true => rw [decodePayload_literal, if_pos (by simpa using h)]
  | false => rw [decodePayload_run, if_pos (by simpa using h)]

/-- A complete payload whose output does not fit. -/
theorem decodePayload_outFull {cap n h0 p length : Nat} {literal : Bool} {rd : Nat → Option Byte} {out bs : List Byte}
    (hlen : (if literal = true then length else 1) ≤ bs.length) (hn : p + bs.length ≤ n) (hrd : ReadsAt rd p bs)
    (hfull : cap < out.length + length) :
    decodePayload cap rd n h0 p length literal out = .error (.err .outFull h0) := by
  cases literal with
  | true =>
    rw [if_pos rfl] at hlen
    have htake : (bs.take length).length = length := List.length_take_of_le hlen
    have hslice : readSlice rd p length = .ok (bs.take length) := by
      have hread : ReadsAt rd p (bs.take length) := by
        rw [← List.take_append_drop length bs, readsAt_append_iff] at hrd
        exact hrd.1
      rw [← readSlice_ok hread, htake]
    rw [decodePayload_literal, if_neg (by omega), hslice, Except.bind, emit_full (by rwa [htake])]
    rfl
  | false =>
    have hpos : bs ≠ [] := by
      rintro rfl
      simp at hlen
    obtain ⟨b, bs, rfl⟩ := List.exists_cons_of_ne_nil hpos
    obtain ⟨hb, -⟩ := reads_cons_iff.mp hrd
    rw [List.length_cons] at hn
    rw [decodePayload_run, if_neg (by omega), readByte_some hb, Except.bind,
      emit_full (by rwa [List.length_replicate])]
    rfl

/-! ### After complete sections -/

/-- Complete sections that fit, and then a pass that fails. -/
theorem rleDecode_of_failing_pass {w cap n : Nat} {rd : Nat → Option Byte} {xs : List WireSection} {e : Stop} (hw : 7 ≤ w)
    (hxs : xs.all (WireSection.valid w) = true) (hn : (wireBytes xs).length < n) (hrd : ReadsAt rd 0 (wireBytes xs))
    (hroom : (wireExpand xs).length ≤ cap)
    (hpass : ∀ f, rleDecodeLoop w cap rd n (f + 1) (wireBytes xs).length (wireExpand xs) = .error e) :
    rleDecode w cap rd n = .error e := by
  have hcount := length_le_wireBytes_length hxs
  obtain ⟨f, hf⟩ : ∃ f, n = f + 1 + xs.length := ⟨n - xs.length - 1, by omega⟩
  have hpasses := rleDecodeLoop_of_all_valid (f := f + 1) (off := 0) (out := []) hw hxs (n := n) (by omega) hrd
    (by simpa using hroom)
  rw [← hf, Nat.zero_add, List.nil_append, hpass] at hpasses
  exact hpasses

/-! ### The command -/

theorem commandResult_decodeStream {c : Params} {l : Latch} (hin : l.inLen.toNat ≤ c.inCap) (rd : Nat → Option Byte) :
    commandResult .decodeStream c l rd =
      (rleDecode c.valW c.outCap rd l.inLen.toNat).bind fun out => .ok ⟨out, 0, false, 0⟩ := by
  rw [commandResult, decodeStreamExec_eq_bind, checkInLen_of_le hin, Except.bind]

theorem exec_decodeStream_errorWith {s : State} {c : ErrCode} {pos : Nat} (hin : s.latch.inLen.toNat ≤ s.cfg.inCap)
    (h : rleDecode s.cfg.valW s.cfg.outCap s.inMem.read s.latch.inLen.toNat = .error (.err c pos)) :
    ∃ t, exec .decodeStream s = .next t ∧ ErrorWith s t c pos :=
  exec_errorWith (by rw [commandResult_decodeStream hin, h, Except.bind])

/-! ### The obligations -/

/-- Settles O33: the decoder makes one pass to each complete section. -/
theorem decodeGivesTheExpansion : Obligations.DecodeGivesTheExpansion := by
  refine fun s hs => ⟨fun xs hxs hlen hin hrd hroom => ?_, fun hgt => ?_⟩
  · refine exec_doneWith (d := ⟨wireExpand xs, 0, false, 0⟩) ?_
    rw [commandResult_decodeStream hin, ← hlen, rleDecode_of_all_valid (seven_le_valW hs) hxs hrd hroom, Except.bind]
  · exact exec_errorWith (commandResult_of_inLen_gt (by simp) hgt _)

/-- Settles O34: after the passes over the complete sections one pass fails, in its header, in the bounds of its payload or
in the room for its output. -/
theorem decodeErrorsAtTheFirstFailingSection : Obligations.DecodeErrorsAtTheFirstFailingSection := by
  intro s xs h p hs hxs hroom hlen hin hrd hne
  have hw := seven_le_valW hs
  have hpos : 0 < h.length := List.length_pos_of_ne_nil hne
  obtain ⟨hrdfront, hrdp⟩ := readsAt_append_iff.mp hrd
  obtain ⟨hrdxs, hrdh⟩ := readsAt_append_iff.mp hrdfront
  simp only [List.length_append, Nat.zero_add] at hlen hrdh hrdp
  have hlt : (wireBytes xs).length < s.latch.inLen.toNat := by omega
  have hfail {c : ErrCode} (hpass : ∀ f, rleDecodeLoop s.cfg.valW s.cfg.outCap s.inMem.read s.latch.inLen.toNat (f + 1)
      (wireBytes xs).length (wireExpand xs) = .error (.err c (wireBytes xs).length)) :=
    exec_decodeStream_errorWith hin (rleDecode_of_failing_pass hw hxs hlt hrdxs hroom hpass)
  refine ⟨fun hcont hp => ?_, fun hvar hge => ?_, fun hvar hfits => ?_⟩
  · subst hp
    have hheader := varintDecode_of_allCont (len := s.latch.inLen.toNat) hw hne hcont (by simpa using hlen) hrdh
    exact hfail fun f => rleDecodeLoop_of_header_error hlt hheader
  · exact hfail fun f => rleDecodeLoop_of_header_error hlt (varintDecode_overflow hw hvar hge (by omega) hrdh)
  · have hheader := sectionDecode_of_isVarint (len := s.latch.inLen.toNat) hw hvar hfits (by omega) hrdh
    refine ⟨fun hshort => ?_, fun hcomplete hfull => ?_⟩
    · refine hfail fun f => rleDecodeLoop_of_payload_error hlt hheader (decodePayload_trunc ?_)
      rw [← hlen]
      simpa only [decide_eq_true_eq, Nat.add_lt_add_iff_left] using hshort
    · exact hfail fun f => rleDecodeLoop_of_payload_error hlt hheader
        (decodePayload_outFull (by simpa only [decide_eq_true_eq] using hcomplete) hlen.le hrdp hfull)

end Sys2Proof.Machine
end

section
/-! Runs of host turns (20_memory.md R51, 70_reset_and_hazards.md R144): a BUSY command is completed after them, and they serve
the host's accesses in issue order. -/

namespace Sys2Proof.Machine

/-! ### Runs -/

theorem run_succ_of_step {M : Host.Core} {s t : M.State} (h : M.step s = .next t) (k : Nat) :
    M.run (k + 1) s = M.run k t := by
  rw [Host.Core.run, h]

/-- One step more at the end of a run. -/
theorem run_succ_of_run {M : Host.Core} {k : Nat} {s u : M.State} (h : M.run k s = .next u) :
    M.run (k + 1) s = M.step u := by
  induction k generalizing s with
  | zero =>
    obtain rfl := Host.Outcome.next.inj h
    rw [Host.Core.run]
    cases M.step s <;> rfl
  | succ k ih =>
    cases hstep : M.step s with
    | next t =>
      rw [run_succ_of_step hstep] at h ⊢
      exact ih h
    | fault r =>
      rw [Host.Core.run, hstep] at h
      cases h
    | refused r =>
      rw [Host.Core.run, hstep] at h
      cases h

theorem withTurns_eq_self {s : State} {ts : List Turn} (h : s.turns = ts) : { s with turns := ts } = s := by
  subst h
  rfl

/-! ### A BUSY command -/

theorem hostStep_of_busy {s : State} (h : s.phase = .busy) :
    ∃ q r d, hostStep s = { s with queue := q, returned := r, draws := d } := by
  rcases hostStep_effects s with hread | ⟨hidle, -⟩ | ⟨hidle, -⟩ | ⟨hidle, -⟩
  · exact hread
  all_goals cases h.symm.trans hidle

/-- Host turns change only the host's side while BUSY, so they leave the command running. -/
theorem run_host_turns_of_busy {s : State} (hbusy : s.phase = .busy) (hts : ∀ x ∈ s.turns, x = .host) :
    ∃ q r d, core.run s.turns.length s = .next { s with turns := [], queue := q, returned := r, draws := d } := by
  generalize ht : s.turns = ts at hts ⊢
  induction ts generalizing s with
  | nil => exact ⟨s.queue, s.returned, s.draws, congrArg Host.Outcome.next (withTurns_eq_self ht).symm⟩
  | cons x ts ih =>
    obtain ⟨rfl, hrest⟩ := List.forall_mem_cons.mp hts
    obtain ⟨q, r, d, hhost⟩ := hostStep_of_busy (s := { s with turns := ts }) hbusy
    have hstep := step_of_host_turn ht
    rw [hhost] at hstep
    obtain ⟨q', r', d', hrun⟩ := ih (s := { s with turns := ts, queue := q, returned := r, draws := d }) hbusy rfl hrest
    exact ⟨q', r', d', (run_succ_of_step (M := core) hstep ts.length).trans hrun⟩

/-! ### The host's accesses -/

/-- The host moves at its turn, and while IDLE when no turn is left. -/
theorem step_of_host_moves {s : State} {ts : List Turn}
    (h : s.turns = .host :: ts ∨ s.turns = [] ∧ ts = [] ∧ s.phase = .idle) :
    step s = .next (hostStep { s with turns := ts }) := by
  rcases h with ht | ⟨ht, rfl, hidle⟩
  · exact step_of_host_turn ht
  · rw [withTurns_eq_self ht, step_of_no_turn ht, hidle]
    rfl

theorem hostStep_of_queue_nil {s : State} (h : s.queue = []) : hostStep s = s := by simp [hostStep, h]

theorem staysQueued_wait (s : State) : staysQueued .wait s = s.status.getLsbD 0 := rfl

theorem staysQueued_of_ne_wait {op : HostOp} (h : op ≠ .wait) (s : State) : staysQueued op s = false := by
  cases op with
  | wait => exact absurd rfl h
  | _ => rfl

/-- At the host's turn an access other than WAIT is served and leaves the queue. -/
theorem step_of_access {s : State} {op : HostOp} {q : List HostOp} {ts : List Turn} (ht : s.turns = .host :: ts)
    (hq : s.queue = op :: q) (hop : op ≠ .wait) :
    step s = .next { hostOp op s with queue := q, turns := ts } := by
  rw [step_of_host_turn ht, hostStep_of_queue_cons (s := { s with turns := ts }) hq, staysQueued_of_ne_wait hop]
  exact congrArg Host.Outcome.next (hostOp_withSchedule op s q ts)

/-- As many host turns as there are accesses without WAIT serve them all, in issue order. -/
theorem run_accesses {s : State} {ops q : List HostOp} {ts : List Turn} (hq : s.queue = ops ++ q)
    (ht : s.turns = List.replicate ops.length .host ++ ts) (hwait : .wait ∉ ops) :
    core.run ops.length s = .next (ops.foldl (fun x op => hostOp op x) { s with queue := q, turns := ts }) := by
  induction ops generalizing s with
  | nil =>
    have hq' : s.queue = q := hq
    have ht' : s.turns = ts := ht
    rw [← hq', ← ht']
    rfl
  | cons op ops ih =>
    obtain ⟨hop, hrest⟩ : op ≠ .wait ∧ .wait ∉ ops := by simpa [eq_comm] using hwait
    have hstep := step_of_access (q := ops ++ q) (ts := List.replicate ops.length .host ++ ts) ht hq hop
    have hrun := ih (s := { hostOp op s with queue := ops ++ q, turns := List.replicate ops.length .host ++ ts })
      rfl rfl hrest
    have hserved := congrArg (fun u => ops.foldl (fun x op => hostOp op x) u) (hostOp_withSchedule op s q ts)
    exact (run_succ_of_step (M := core) hstep ops.length).trans (hrun.trans (congrArg Host.Outcome.next hserved.symm))

/-! ### The obligations -/

/-- Settles O44: host turns leave the latch, IN and the parameters as they are, and with no turn left the engine moves. -/
theorem busyCommandCompletesAfterHostTurns : Obligations.BusyCommandCompletesAfterHostTurns := by
  intro s hbusy hts
  obtain ⟨q, r, d, hrun⟩ := run_host_turns_of_busy hbusy hts
  have hstep : step { s with turns := [], queue := q, returned := r, draws := d } =
      exec (fetch s) { s with turns := [], queue := q, returned := r, draws := d } := by
    obtain ⟨-, hdefault, -⟩ :=
      stepRunsTheLatchedCommand { s with turns := [], queue := q, returned := r, draws := d } [] _ rfl
    exact hdefault hbusy rfl
  have hlast := (run_succ_of_run (M := core) hrun).trans hstep
  refine ⟨⟨_, hrun, hbusy, rfl, rfl, rfl, rfl, rfl, hlast, rfl⟩, fun hwritten => ?_⟩
  obtain ⟨t, hexec, hdone⟩ := everyCommandCompletesOnWrittenInput (fetch s)
    { s with turns := [], queue := q, returned := r, draws := d } hwritten
  exact ⟨t, hlast.trans hexec, hdone⟩

/-- Settles O45: the host's step takes the access at the head of the queue, which stays there only when it is WAIT and the
BUSY bit is 1. -/
theorem hostTurnsServeAccessesInIssueOrder : Obligations.HostTurnsServeAccessesInIssueOrder := by
  refine ⟨fun s ts hmoves => ⟨fun hq => ?_, fun op q hq => ⟨fun htaken => ?_, fun hop hbit => ?_⟩⟩,
    fun s ops q ts hq ht hwait => ⟨_, run_accesses hq ht hwait, rfl⟩⟩
  · rw [step_of_host_moves hmoves, hostStep_of_queue_nil (s := { s with turns := ts }) hq]
  · have hleaves : staysQueued op { s with turns := ts } = false := by
      by_cases hop : op = .wait
      · subst hop
        exact htaken.resolve_left (absurd rfl)
      · exact staysQueued_of_ne_wait hop _
    rw [step_of_host_moves hmoves, hostStep_of_queue_cons (s := { s with turns := ts }) hq, hleaves]
    rfl
  · subst hop
    rw [step_of_host_moves hmoves, hostStep_of_queue_cons (s := { s with turns := ts }) hq, staysQueued_wait, if_pos hbit]

end Sys2Proof.Machine
end
